-- ==== Sys2Proof/Word.lean ====
section
/-! DEFINITION. The value types of the engine (R9) and the arithmetic on data that is a single
operator of them (R10, R11). There are no signed values (R9, R123). -/

namespace Sys2Proof

/-- `u32`: a matrix word, a register of the register space, a command word (R9). -/
abbrev Word := BitVec 32

/-- `u8`: a byte of KEY, NONCE, KS, IN or OUT (R9). -/
abbrev Byte := BitVec 8

/-- `u64`: a buffer address, ILEN, OLEN (R9, `LENBITS` of R8). -/
abbrev Addr := BitVec 64

/-- The working matrix and the snapshot: sixteen words (R7 `NWORDS`, R20, R23). -/
abbrev WordState := Vector Word 16

/-- R10: addition modulo `2^32`, the carry out of bit 31 discarded. -/
def add32 (a b : Word) : Word := a + b

/-- R11: bitwise exclusive or of two words. -/
def xor32 (a b : Word) : Word := a ^^^ b

/-- R11: bitwise exclusive or of two bytes. -/
def xor8 (a b : Byte) : Byte := a ^^^ b

end Sys2Proof
end

