-- ==== Sys2Proof/Config.lean ====
section
/-! DEFINITION. The parameters the source fixes (R7), those the spec chooses (R8), what an unlisted
byte of a buffer reads as, and the one source of free values (R231, U1). -/

namespace Sys2Proof.Config

/-- R7 `KEYBYTES`. -/
def keyBytes : Nat := 32

/-- R7 `NONCEBYTES`. -/
def nonceBytes : Nat := 12

/-- R7 `BLOCKBYTES`. -/
def blockBytes : Nat := 64

/-- R7 `NDOUBLE`: the double rounds of a block. -/
def ndouble : Nat := 10

/-- R7 constant `C0`. -/
def c0 : Word := 0x61707865#32

/-- R7 constant `C1`. -/
def c1 : Word := 0x3320646e#32

/-- R7 constant `C2`. -/
def c2 : Word := 0x79622d32#32

/-- R7 constant `C3`. -/
def c3 : Word := 0x6b206574#32

/-- R7: the column tuples, in the order of R122. -/
def columns : List (Fin 16 × Fin 16 × Fin 16 × Fin 16) :=
  [(0, 4, 8, 12), (1, 5, 9, 13), (2, 6, 10, 14), (3, 7, 11, 15)]

/-- R7: the diagonal tuples, in the order of R122. -/
def diagonals : List (Fin 16 × Fin 16 × Fin 16 × Fin 16) :=
  [(0, 5, 10, 15), (1, 6, 11, 12), (2, 7, 8, 13), (3, 4, 9, 14)]

/-- R8 `REGSPACE`: the size in bytes of the register space. -/
def regSpace : Nat := 256

/-- R8 `NINST`: the number of engines of a platform, a parameter whose default is 1. -/
def ninst : Nat := 1

/-- What a byte of IN or OUT that no entry lists reads as. The spec leaves the contents at reset
unspecified (R36, R37, R40, U2). DESIGN CHOICE, unsafe for a claim about the buffers of
`State.reset` itself; log entry 3. -/
def unlistedByte : Byte := 0#8

/-- The free bytes of R231 (U1: any value, byte by byte). No body: nothing can evaluate it.
The counter `State.freeNext` says how many have been used. Log entry 4. -/
opaque freeByte : Nat → Byte

end Sys2Proof.Config
end

