-- ==== Sys2Proof/Machine/HostMove.lean ====
section
/-! DEFINITION. What the host may do to one engine (R220) and what it gets back, as plain data; the
named registers of the register map (R38). -/

namespace Sys2Proof.Machine

/-- The named registers of R38. STATUS and CMD are a view and a port, not state (R33, R34). -/
inductive RegName where
  | cmd
  | status
  | ictr
  | klen
  | nlen
  | ilenLo
  | ilenHi
  | olenLo
  | olenHi
  | keyw (j : Fin 8)
  | noncew (j : Fin 3)
  | w (i : Fin 16)
  deriving DecidableEq, Repr

/-- One access of the host to one engine (R220). A register access carries its byte offset and its
width in bytes, so that the accesses the bus refuses (R65) can be written down. -/
inductive HostMove where
  /-- A write of `v` at a byte offset of the register space; at the CMD offset it issues a command. -/
  | writeReg (offset width : Nat) (v : Word)
  /-- A read at a byte offset of the register space. -/
  | readReg (offset width : Nat)
  /-- A write of one byte of IN (R36). -/
  | writeIn (a : Addr) (b : Byte)
  /-- A read of one byte of IN (R36). -/
  | readIn (a : Addr)
  /-- A write of one byte of OUT (R37). -/
  | writeOut (a : Addr) (b : Byte)
  /-- A read of one byte of OUT (R37). -/
  | readOut (a : Addr)
  /-- Reset while no command is executing (R230). -/
  | reset
  /-- A write of `c` to CMD, then reset while that command is executing (R231). -/
  | commandThenReset (c : Word)
  deriving DecidableEq, Repr

/-- What the host received from its last access: the word of a register read (R45), the byte of a
buffer read, or nothing. -/
inductive Reply where
  | nothing
  | word (v : Word)
  | byte (b : Byte)
  deriving DecidableEq, Repr

end Sys2Proof.Machine
end

