-- ==== Sys2Proof/Syntax.lean ====
section
/-! DEFINITION. The commands (R96, one constructor per row of spec/opcode_table.json) and a line of
assembler text split into its parts (R99). -/

namespace Sys2Proof

/-- The ten commands (R96). Index operands are `Fin 16` and the rotation is `Fin 32`, because no
other amount is expressible in a command word (R92, R93, R94, U5). -/
inductive Instr where
  /-- ROUND x, y, z, r (R120). -/
  | round (x y z : Fin 16) (r : Fin 32)
  /-- QROUND a, b, c, d (R121). -/
  | qround (a b c d : Fin 16)
  /-- DROUND (R122). -/
  | dround
  /-- INIT (R140). -/
  | init
  /-- BLOCK (R145). -/
  | block
  /-- SER (R150). -/
  | ser
  /-- ENC (R160). -/
  | enc
  /-- DEC (R161). -/
  | dec
  /-- WIPE (R190). -/
  | wipe
  /-- CLRKEY (R191). -/
  | clrkey
  deriving DecidableEq, Repr

/-- One command in text after the split at spaces and commas (R99): the mnemonic and the numbers,
which may be out of range. -/
structure AsmLine where
  mnemonic : String
  operands : List Nat
  deriving DecidableEq, Repr

end Sys2Proof
end

