-- ==== Sys2Proof/WellFormed.lean ====
section
/-! DEFINITION. What is well formed: a command word (a row of the opcode table, R95, R96), a line of
assembler text (R99 with the operand ranges of R92 and R93, U5), a move of the host (R65). Every
`Instr` is well formed by its type. -/

namespace Sys2Proof

/-- One row of R96: a word `c` is this row's command exactly when `c AND mask = value`. -/
structure OpcodeRow where
  mnemonic : String
  mask : Word
  value : Word
  deriving DecidableEq, Repr

/-- The opcode map (R96), in the table's order. -/
def opcodeTable : List OpcodeRow :=
  [⟨"ROUND", 0xFFFE0000#32, 0x01000000#32⟩,
   ⟨"QROUND", 0xFFFF0000#32, 0x02000000#32⟩,
   ⟨"DROUND", 0xFFFFFFFF#32, 0x03000000#32⟩,
   ⟨"INIT", 0xFFFFFFFF#32, 0x04000000#32⟩,
   ⟨"BLOCK", 0xFFFFFFFF#32, 0x05000000#32⟩,
   ⟨"SER", 0xFFFFFFFF#32, 0x06000000#32⟩,
   ⟨"ENC", 0xFFFFFFFF#32, 0x07000000#32⟩,
   ⟨"DEC", 0xFFFFFFFF#32, 0x08000000#32⟩,
   ⟨"WIPE", 0xFFFFFFFF#32, 0x09000000#32⟩,
   ⟨"CLRKEY", 0xFFFFFFFF#32, 0x0A000000#32⟩]

/-- R95: the word `c` is the command of the row. -/
def OpcodeRow.accepts (row : OpcodeRow) (c : Word) : Bool := c &&& row.mask == row.value

/-- R95, R97: a word that matches no row of the table is illegal. -/
def commandWordWellFormed (c : Word) : Bool := opcodeTable.any fun row => row.accepts c

/-- R96, R92, R93: the operand limits of a mnemonic, in assembler order; none where R96 has no such
mnemonic. -/
def operandLimits (mnemonic : String) : Option (List Nat) :=
  if mnemonic = "ROUND" then some [16, 16, 16, 32]
  else if mnemonic = "QROUND" then some [16, 16, 16, 16]
  else if mnemonic ∈ ["DROUND", "INIT", "BLOCK", "SER", "ENC", "DEC", "WIPE", "CLRKEY"] then some []
  else none

/-- R99: the mnemonic is one of R96, it has as many operands as R96 gives it, and every operand is
in range (U5: a larger one is refused). -/
def AsmLine.wellFormed (line : AsmLine) : Bool :=
  match operandLimits line.mnemonic with
  | none => false
  | some limits =>
    decide (line.operands.length = limits.length) &&
      (line.operands.zip limits).all fun p => decide (p.1 < p.2)

/-- R65: a register access is one 32-bit word at a multiple of 4 below 0x100. -/
def registerAccessWellFormed (offset width : Nat) : Bool :=
  decide (width = 4) && decide (offset % 4 = 0) && decide (offset < 0x100)

/-- R65, R66: only register accesses can be ill formed; buffer accesses are single bytes anywhere. -/
def Machine.HostMove.wellFormed : Machine.HostMove → Bool
  | .writeReg offset width _ => registerAccessWellFormed offset width
  | .readReg offset width => registerAccessWellFormed offset width
  | .writeIn _ _ => true
  | .readIn _ => true
  | .writeOut _ _ => true
  | .readOut _ => true
  | .reset => true
  | .commandThenReset _ => true

end Sys2Proof
end

