-- ==== Sys2Proof/Decode.lean ====
section
/-! DEFINITION. Decoding a command word (R95), encoding a command (R91 to R94, with the words of R120
and R121), mnemonics and the assembler of R99. Decoding is total and names why a word is illegal. -/

namespace Sys2Proof

/-- R9: `v[hi:lo]`, the unsigned integer made of bits `hi` down to `lo`, both ends included. -/
def slice {n : Nat} (v : BitVec n) (hi lo : Nat) : Nat := v.toNat / 2 ^ lo % 2 ^ (hi - lo + 1)

/-- Why a word is no command (R97). -/
inductive IllegalWord where
  /-- The opcode field is not in R96. -/
  | unknownOpcode
  /-- The opcode is in R96 and a must-be-zero bit of its format is set. -/
  | nonzeroMustBeZero
  deriving DecidableEq, Repr

/-- R95: the two outcomes of decoding a 32-bit word. -/
inductive Decoded where
  | command (i : Instr)
  | illegal (why : IllegalWord)
  deriving DecidableEq, Repr

/-- R94: a 4-bit index field, taken as it stands. -/
def indexField (c : Word) (lo : Nat) : Fin 16 := Fin.ofNat 16 (slice c (lo + 3) lo)

/-- R94: the 5-bit rotation field `c[16:12]`, taken as it stands. -/
def rotationField (c : Word) : Fin 32 := Fin.ofNat 32 (slice c 16 12)

/-- R95: the command `i` if the must-be-zero field `c[hi:lo]` is zero, else illegal. -/
def ifMustBeZero (c : Word) (hi lo : Nat) (i : Instr) : Decoded :=
  if slice c hi lo = 0 then .command i else .illegal .nonzeroMustBeZero

/-- R95: decoding, total on 32-bit words. -/
def decode (c : Word) : Decoded :=
  match slice c 31 24 with
  | 0x01 =>
    ifMustBeZero c 23 17
      (.round (indexField c 0) (indexField c 4) (indexField c 8) (rotationField c))
  | 0x02 =>
    ifMustBeZero c 23 16
      (.qround (indexField c 0) (indexField c 4) (indexField c 8) (indexField c 12))
  | 0x03 => ifMustBeZero c 23 0 .dround
  | 0x04 => ifMustBeZero c 23 0 .init
  | 0x05 => ifMustBeZero c 23 0 .block
  | 0x06 => ifMustBeZero c 23 0 .ser
  | 0x07 => ifMustBeZero c 23 0 .enc
  | 0x08 => ifMustBeZero c 23 0 .dec
  | 0x09 => ifMustBeZero c 23 0 .wipe
  | 0x0A => ifMustBeZero c 23 0 .clrkey
  | _ => .illegal .unknownOpcode

/-- R91 to R93: the word of a command; the two with operands as R120 and R121 write them. -/
def encode : Instr → Word
  | .round x y z r =>
    BitVec.ofNat 32 (0x01000000 + r.val * 2 ^ 12 + z.val * 2 ^ 8 + y.val * 2 ^ 4 + x.val)
  | .qround a b c d =>
    BitVec.ofNat 32 (0x02000000 + d.val * 2 ^ 12 + c.val * 2 ^ 8 + b.val * 2 ^ 4 + a.val)
  | .dround => 0x03000000#32
  | .init => 0x04000000#32
  | .block => 0x05000000#32
  | .ser => 0x06000000#32
  | .enc => 0x07000000#32
  | .dec => 0x08000000#32
  | .wipe => 0x09000000#32
  | .clrkey => 0x0A000000#32

/-- The command of opcode-table bits `w` in a row of `nbits` bits. A command is one 32-bit word
(R90), so a longer pattern with bits above bit 31 is none. -/
def decodeTableWord (nbits w : Nat) : Option Instr :=
  if w % 2 ^ nbits < 2 ^ 32 then
    match decode (BitVec.ofNat 32 (w % 2 ^ nbits)) with
    | .command i => some i
    | .illegal _ => none
  else none

/-- R96: the mnemonic of a command. -/
def Instr.mnemonic : Instr → String
  | .round _ _ _ _ => "ROUND"
  | .qround _ _ _ _ => "QROUND"
  | .dround => "DROUND"
  | .init => "INIT"
  | .block => "BLOCK"
  | .ser => "SER"
  | .enc => "ENC"
  | .dec => "DEC"
  | .wipe => "WIPE"
  | .clrkey => "CLRKEY"

/-- R96, R99: the operands of a command in assembler order. -/
def Instr.operands : Instr → List Nat
  | .round x y z r => [x.val, y.val, z.val, r.val]
  | .qround a b c d => [a.val, b.val, c.val, d.val]
  | .dround => []
  | .init => []
  | .block => []
  | .ser => []
  | .enc => []
  | .dec => []
  | .wipe => []
  | .clrkey => []

/-- R99: the assembler line of a command. -/
def Instr.asm (i : Instr) : AsmLine := ⟨i.mnemonic, i.operands⟩

/-- R99: the text of a command, its operands as decimal numbers. -/
def Instr.text (i : Instr) : String :=
  match i.operands with
  | [] => i.mnemonic
  | ops => i.mnemonic ++ " " ++ ", ".intercalate (ops.map toString)

/-- R99, U5: the command of an assembler line, none where the mnemonic is not in R96, the number of
operands is wrong or an operand is out of range. -/
def assemble (line : AsmLine) : Option Instr :=
  if line.wellFormed then
    match line.mnemonic, line.operands with
    | "ROUND", [x, y, z, r] =>
      some (.round (Fin.ofNat 16 x) (Fin.ofNat 16 y) (Fin.ofNat 16 z) (Fin.ofNat 32 r))
    | "QROUND", [a, b, c, d] =>
      some (.qround (Fin.ofNat 16 a) (Fin.ofNat 16 b) (Fin.ofNat 16 c) (Fin.ofNat 16 d))
    | "DROUND", [] => some .dround
    | "INIT", [] => some .init
    | "BLOCK", [] => some .block
    | "SER", [] => some .ser
    | "ENC", [] => some .enc
    | "DEC", [] => some .dec
    | "WIPE", [] => some .wipe
    | "CLRKEY", [] => some .clrkey
    | _, _ => none
  else none

end Sys2Proof
end

