-- ==== Sys2Proof/Machine/Operands.lean ====
section
/-! DEFINITION. The operand forms of the commands as pure functions: rotation, bytes and words
(R12, R13, R60 to R63), the mixing functions (R120 to R122, R142), the block function (R141 to R144),
chunks and counters (R164, R165). The functions over a whole matrix are irreducible, so that a proof
about a record never evaluates a block by accident; a proof unfolds them by name. -/

namespace Sys2Proof.Machine

/-- R12: left rotation of a word by `r` in 0..31. -/
def rotl32 (v : Word) (r : Nat) : Word :=
  BitVec.ofNat 32 (v.toNat * 2 ^ r % 2 ^ 32 + v.toNat / 2 ^ (32 - r))

/-- R13: four bytes as a word, the byte at the lowest index least significant. -/
def le32 (b0 b1 b2 b3 : Byte) : Word :=
  BitVec.ofNat 32 (b0.toNat + 2 ^ 8 * b1.toNat + 2 ^ 16 * b2.toNat + 2 ^ 24 * b3.toNat)

/-- R9: byte `k` of a word, `v[8k+7:8k]`. -/
def byteOf (v : Word) (k : Nat) : Byte := BitVec.ofNat 8 (slice v (8 * k + 7) (8 * k))

/-- Byte `i` of a byte register; 0 at an index the register does not have (no rule uses one). -/
def byteAt {n : Nat} (bytes : Vector Byte n) (i : Nat) : Byte := bytes[i]?.getD 0

/-- R60, R61: word `j` of a byte register, little-endian. -/
def wordOfBytes {n : Nat} (bytes : Vector Byte n) (j : Nat) : Word :=
  le32 (byteAt bytes (4 * j)) (byteAt bytes (4 * j + 1)) (byteAt bytes (4 * j + 2))
    (byteAt bytes (4 * j + 3))

/-- R45, R64: write word `j` of a byte register, low byte at the lowest index. -/
def setWordOfBytes {n : Nat} (bytes : Vector Byte n) (j : Nat) (v : Word) : Vector Byte n :=
  (((bytes.setIfInBounds (4 * j) (byteOf v 0)).setIfInBounds (4 * j + 1)
    (byteOf v 1)).setIfInBounds (4 * j + 2) (byteOf v 2)).setIfInBounds (4 * j + 3) (byteOf v 3)

/-- R120: one round step, three statements in order, each seeing the writes before it. -/
def roundStep (m : WordState) (x y z : Fin 16) (r : Nat) : WordState :=
  let m := m.set x.val (add32 m[x.val] m[z.val])
  let m := m.set y.val (xor32 m[y.val] m[x.val])
  m.set y.val (rotl32 m[y.val] r)

/-- R121: one quarter round, four round steps with the rotations 16, 12, 8, 7. -/
def quarterRound (m : WordState) (a b c d : Fin 16) : WordState :=
  let m := roundStep m a d b 16
  let m := roundStep m c b d 12
  let m := roundStep m a d b 8
  roundStep m c b d 7

/-- The quarter rounds of a list of index tuples, in order. -/
def quarterRounds (m : WordState) (tuples : List (Fin 16 × Fin 16 × Fin 16 × Fin 16)) : WordState :=
  tuples.foldl (fun m t => quarterRound m t.1 t.2.1 t.2.2.1 t.2.2.2) m

/-- R122: one double round, the four columns and then the four diagonals. -/
@[irreducible] def doubleRound (m : WordState) : WordState :=
  quarterRounds (quarterRounds m Config.columns) Config.diagonals

/-- `k` double rounds in a row. -/
def doubleRounds : Nat → WordState → WordState
  | 0, m => m
  | k + 1, m => doubleRounds k (doubleRound m)

/-- R142: `Rounds`, ten double rounds. -/
@[irreducible] def rounds (m : WordState) : WordState := doubleRounds Config.ndouble m

/-- R141: `InitWords(key, nonce, ctr)`; the counter goes in as the number it is (R62). -/
@[irreducible]
def initWords (key : Vector Byte 32) (nonce : Vector Byte 12) (ctr : Word) : WordState :=
  #v[Config.c0, Config.c1, Config.c2, Config.c3,
    wordOfBytes key 0, wordOfBytes key 1, wordOfBytes key 2, wordOfBytes key 3,
    wordOfBytes key 4, wordOfBytes key 5, wordOfBytes key 6, wordOfBytes key 7,
    ctr, wordOfBytes nonce 0, wordOfBytes nonce 1, wordOfBytes nonce 2]

/-- R143, R145: the word-by-word addition of the feed-forward. -/
@[irreducible] def addWords (m s : WordState) : WordState := Vector.zipWith add32 m s

/-- R143: `BlockWords(key, nonce, ctr)`. -/
@[irreducible]
def blockWords (key : Vector Byte 32) (nonce : Vector Byte 12) (ctr : Word) : WordState :=
  addWords (rounds (initWords key nonce ctr)) (initWords key nonce ctr)

/-- R144, R63: `SerBytes(m)`, byte `k` of word `i` at index `4i + k`. -/
@[irreducible] def serBytes (m : WordState) : Vector Byte 64 :=
  Vector.ofFn fun q : Fin 64 => byteOf (m[q.val / 4]'(by omega)) (q.val % 4)

/-- R144: the keystream block for a counter value. -/
@[irreducible]
def keystreamBlock (key : Vector Byte 32) (nonce : Vector Byte 12) (ctr : Word) : Vector Byte 64 :=
  serBytes (blockWords key nonce ctr)

/-- R164: the number of chunks of an input of `len` bytes. -/
def chunkCount (len : Nat) : Nat := (len + 63) / 64

/-- R164: the length of chunk `i` of an input of `len` bytes. -/
def chunkLen (len i : Nat) : Nat := min 64 (len - 64 * i)

/-- R165: the counter value of chunk `i`, computed in `nat`. -/
def chunkCounter (ictr : Word) (i : Nat) : Nat := ictr.toNat + i

/-- R165: some chunk's counter does not fit 32 bits. -/
def counterOverflows (ictr : Word) (n : Nat) : Bool :=
  decide (1 ≤ n) && decide (ictr.toNat + n - 1 > 2 ^ 32 - 1)

end Sys2Proof.Machine
end

