-- ==== Sys2Proof/Machine/State.lean ====
section
/-! DEFINITION. The state of one engine as plain data: everything of 10_state.md, then the model's own
three fields for the host's side (log entries 1, 2) and for free values (log entry 4); the error
codes; why a step may stop; the state after reset (R40). -/

namespace Sys2Proof.Machine

/-- IN or OUT: the bytes that differ from `Config.unlistedByte`, by strictly rising address. -/
abbrev Memory := List Host.Cell

/-- The values ERR can take (R200, U7: eight values). -/
inductive ErrCode where
  | ok
  | invalidLength
  | emptyInput
  | lengthMismatch
  | counterOverflow
  | randomSourceError
  | illegalCommand
  | stateUninitialized
  deriving DecidableEq, Repr

/-- The phases of the block-counter state machine (R35, R166). -/
inductive Phase where
  | idle
  | check
  | gen
  | kser
  | xor
  | scrub
  | final
  deriving DecidableEq, Repr

/-- SEQ = (phase, i, n) (R35): the phase, the chunk index, the chunk count latched by CHECK. -/
structure Sequencer where
  phase : Phase
  i : Nat
  n : Nat
  deriving DecidableEq, Repr

/-- What stops the engine: nothing. Every error of the spec is recorded in ERR and the engine goes on
(R16, R211), so this type has no constructor. Safe: no run is cut short. -/
inductive Fault where
  deriving DecidableEq, Repr

/-- Why a step has no meaning. -/
inductive Refusal where
  /-- Raised by an arm of `exec` whose command has no meaning yet. No arm is left. Safe. -/
  | notModelled (mnemonic : String)
  /-- Raised by `perform` for a register access that is not an aligned 32-bit word inside the
  256-byte register space (R65, U3: such an access is refused, it is no move of the host). Safe. -/
  | busAccess
  deriving DecidableEq, Repr

/-- The state of one engine. -/
@[ext]
structure State where
  /-- W, the working matrix (R20). -/
  w : WordState
  /-- WMASK, one written bit per word of W (R22). -/
  wmask : BitVec 16
  /-- S, the snapshot (R23). -/
  snap : WordState
  /-- KS, the keystream scratch block (R24). -/
  ks : Vector Byte 64
  /-- KEY (R25). -/
  key : Vector Byte 32
  /-- KLEN (R26). -/
  klen : Word
  /-- NONCE (R27). -/
  nonce : Vector Byte 12
  /-- NLEN (R28). -/
  nlen : Word
  /-- ICTR, the initial block counter (R29). -/
  ictr : Word
  /-- ILEN (R30). -/
  ilen : BitVec 64
  /-- OLEN (R31). -/
  olen : BitVec 64
  /-- ERR, the result of the last command (R32). -/
  err : ErrCode
  /-- SEQ, the sequencer (R35). -/
  seq : Sequencer
  /-- IN, the input buffer space (R36). -/
  inBuf : Memory
  /-- OUT, the output buffer space (R37). -/
  outBuf : Memory
  /-- The model's own: the host's accesses not yet served, oldest first (R72; log entry 1). -/
  pending : List HostMove
  /-- The model's own: what the host received from its last access (R45; log entry 2). -/
  reply : Reply
  /-- The model's own: how many free bytes have been used (R231; log entry 4). -/
  freeNext : Nat
  deriving DecidableEq, Repr

/-- R40: the state after reset. The contents of IN and OUT, which R40 leaves unspecified, and the
model's own three fields are named in log entries 1 to 4. -/
def State.reset : State where
  w := Vector.replicate 16 0
  wmask := 0
  snap := Vector.replicate 16 0
  ks := Vector.replicate 64 0
  key := Vector.replicate 32 0
  klen := 0
  nonce := Vector.replicate 12 0
  nlen := 0
  ictr := 0
  ilen := 0
  olen := 0
  err := .ok
  seq := ⟨.idle, 0, 0⟩
  inBuf := []
  outBuf := []
  pending := []
  reply := .nothing
  freeNext := 0

end Sys2Proof.Machine
end

