-- ==== Sys2Proof/Machine/Flags.lean ====
section
/-! DEFINITION. The status bits: error codes (R200), the written mask and WVALID (R22), STATUS (R33).
There are no arithmetic flags (R10, R123). -/

namespace Sys2Proof.Machine

/-- R200: the code of an error in the 4-bit ERR field. -/
def ErrCode.code : ErrCode → BitVec 4
  | .ok => 0
  | .invalidLength => 1
  | .emptyInput => 2
  | .lengthMismatch => 3
  | .counterOverflow => 4
  | .randomSourceError => 5
  | .illegalCommand => 6
  | .stateUninitialized => 7

/-- R22: WMASK with all sixteen bits set. -/
def wmaskFull : BitVec 16 := 0xFFFF#16

/-- R22: WVALID, every word of W written since the last wipe. -/
def State.wvalid (s : State) : Bool := s.wmask == wmaskFull

/-- R22: WMASK after a host write of word `i`. -/
def maskWritten (mask : BitVec 16) (i : Fin 16) : BitVec 16 := mask ||| (1#16 <<< i.val)

/-- R33: STATUS, a view: WMASK in bits 31:16, zeros in 15:5, WVALID in bit 4, ERR in bits 3:0. -/
def State.status (s : State) : Word :=
  s.wmask ++ 0#11 ++ BitVec.ofBool s.wvalid ++ s.err.code

end Sys2Proof.Machine
end

