-- ==== Sys2Proof/Machine/Ops.lean ====
section
/-! DEFINITION. The named operations over memory and state that the meanings share: buffer bytes
(R15), raising an error and completing (R16, R211), the wipe (R190, R172), reset (R230) and a command
abandoned by reset (R231). -/

namespace Sys2Proof.Machine

/-- The byte at an address; what no entry lists reads as `Config.unlistedByte`. -/
def Memory.read : Memory → Nat → Byte
  | [], _ => Config.unlistedByte
  | (k, b) :: m, a => if k = a then b else Memory.read m a

/-- The memory without an entry for the address. -/
def Memory.erase (m : Memory) (a : Nat) : Memory := m.filter fun c => c.1 != a

/-- The memory with an entry put before the first higher address. -/
def Memory.insert : Memory → Nat → Byte → Memory
  | [], a, v => [(a, v)]
  | (k, b) :: m, a, v => if a < k then (a, v) :: (k, b) :: m else (k, b) :: Memory.insert m a v

/-- A write of one byte; the canonical form is kept. -/
def Memory.write (m : Memory) (a : Nat) (v : Byte) : Memory :=
  if v = Config.unlistedByte then m.erase a else (m.erase a).insert a v

/-- The canonical form: addresses strictly rising and below `2^64` (R36, R37), no entry equal to what
an unlisted address reads as. -/
def Memory.wf (m : Memory) : Bool :=
  decide (m.Pairwise fun c d => c.1 < d.1) &&
    m.all fun c => c.2 != Config.unlistedByte && decide (c.1 < 2 ^ 64)

/-- R15: `MemRead(addr, 1)`, one byte of IN. Every rule uses one byte. -/
def State.memRead (s : State) (addr : Addr) : Byte := s.inBuf.read addr.toNat

/-- R15: `MemWrite(addr, 1, v)`, one byte of OUT. -/
def State.memWrite (s : State) (addr : Addr) (v : Byte) : State :=
  { s with outBuf := s.outBuf.write addr.toNat v }

/-- R15: `MemRead(addr, n)`, the bytes of IN from `addr` on, little-endian. -/
def State.memReadLe (s : State) (addr : Addr) : Nat → Nat
  | 0 => 0
  | n + 1 => (s.memRead addr).toNat + 2 ^ 8 * s.memReadLe (addr + 1) n

/-- R15: `MemWrite(addr, n, v)`, the `n` low bytes of `v`, least significant first. -/
def State.memWriteLe (s : State) (addr : Addr) : Nat → Nat → State
  | 0, _ => s
  | n + 1, v => (s.memWrite addr (BitVec.ofNat 8 v)).memWriteLe (addr + 1) n (v / 2 ^ 8)

/-- Writes of the bytes of a list to OUT at rising addresses from `a` (R150). -/
def State.memWriteList (s : State) : Nat → List Byte → State
  | _, [] => s
  | a, b :: bs => (s.memWrite (BitVec.ofNat 64 a) b).memWriteList (a + 1) bs

/-- R16, R211: raising an error, the engine's only exception entry. ERR takes the code and nothing
else changes; there is no handler, no saved register and no mode. -/
def State.raise (s : State) (e : ErrCode) : State := { s with err := e }

/-- R16, R213: a command that ends without an error sets ERR to 0. There is no other return: the
error of an earlier command is over as soon as this one has ended. -/
def State.complete (s : State) : State := { s with err := .ok }

/-- R190, R172: W, WMASK, S and KS become zero. -/
def State.wipeScratch (s : State) : State :=
  { s with
    w := Vector.replicate 16 0
    wmask := 0
    snap := Vector.replicate 16 0
    ks := Vector.replicate 64 0 }

/-- R201: the declared key and nonce lengths are the required ones. -/
def State.lengthsOk (s : State) : Bool := s.klen == 32#32 && s.nlen == 12#32

/-- R40, U2: power-up with given contents of IN and OUT, which the spec leaves open. `State.reset` is
the one whose buffers list no byte (log entry 3). -/
def State.powerUp (inBuf outBuf : Memory) : State :=
  { State.reset with inBuf := inBuf, outBuf := outBuf }

/-- R230: reset on an engine. Every register takes its value of R40; IN and OUT are not touched.
The model's own fields belong to the host's side and stay (log entry 9). -/
def State.engineReset (s : State) : State :=
  { State.reset with
    inBuf := s.inBuf
    outBuf := s.outBuf
    pending := s.pending
    reply := s.reply
    freeNext := s.freeNext }

/-- The bytes `OUT[0 .. len-1]` take the free values numbered from `base` (R231, U1; log entry 4). -/
def State.fillFree (s : State) (base : Nat) : Nat → State
  | 0 => s
  | j + 1 => (s.fillFree base j).memWrite (BitVec.ofNat 64 j) (Config.freeByte (base + j))

/-- The bytes `OUT[0 .. len-1]` each take a fresh free value. Which one depends on `freeNext` alone,
never on KEY, NONCE, ICTR or IN. U1 ties the bytes to nothing: DESIGN CHOICE, unsafe for a claim that
compares the abandoned bytes of two states; log entry 19. -/
def State.freeOut (s : State) (len : Nat) : State :=
  { s.fillFree s.freeNext len with freeNext := s.freeNext + len }

/-- R231: how many bytes of OUT from address 0 the command of a word may have written when it is
abandoned: ILEN for ENC and DEC, 64 for SER, none for any other word. -/
def State.abandonedRange (s : State) (c : Word) : Nat :=
  match decode c with
  | .command .enc => s.ilen.toNat
  | .command .dec => s.ilen.toNat
  | .command .ser => Config.blockBytes
  | .command _ => 0
  | .illegal _ => 0

/-- R231: a command abandoned by a reset while it executes. -/
def State.abandon (s : State) (c : Word) : State := (s.freeOut (s.abandonedRange c)).engineReset

end Sys2Proof.Machine
end

