-- ==== Sys2Proof/Machine/Block.lean ====
section
/-! DEFINITION. The commands that set up, transform and serialize W: INIT, BLOCK, SER
(41_wordstate_block.md). -/

namespace Sys2Proof.Machine

/-- R140: W takes InitWords with the counter `ctr`, and WMASK all ones. -/
def State.initMatrix (s : State) (ctr : Word) : State :=
  { s with w := initWords s.key s.nonce ctr, wmask := wmaskFull }

/-- R145: `S[i] <- W[i]` for all `i`. -/
def State.snapshot (s : State) : State := { s with snap := s.w }

/-- R142, R145: ten double rounds on W. -/
def State.mixRounds (s : State) : State := { s with w := rounds s.w }

/-- R145: `W[i] <- add32(W[i], S[i])` for all `i`. -/
def State.feedForward (s : State) : State := { s with w := addWords s.w s.snap }

/-- R145: `S[i] <- 0` for all `i`. -/
def State.clearSnapshot (s : State) : State := { s with snap := Vector.replicate 16 0 }

/-- R145, R168: the body of BLOCK and of phase GEN for a counter value, line by line. -/
def State.generate (s : State) (ctr : Word) : State :=
  ((((s.initMatrix ctr).snapshot).mixRounds).feedForward).clearSnapshot

/-- R140: INIT. -/
def execInit (s : State) : Host.Outcome State Fault Refusal :=
  if s.lengthsOk then .next (s.initMatrix s.ictr).complete else .next (s.raise .invalidLength)

/-- R145: BLOCK. -/
def execBlock (s : State) : Host.Outcome State Fault Refusal :=
  if s.lengthsOk then .next (s.generate s.ictr).complete else .next (s.raise .invalidLength)

/-- R150: SER. -/
def execSer (s : State) : Host.Outcome State Fault Refusal :=
  if !s.wvalid then .next (s.raise .stateUninitialized)
  else if s.olen ≠ 64#64 then .next (s.raise .invalidLength)
  else .next (s.memWriteList 0 (serBytes s.w).toList).complete

end Sys2Proof.Machine
end

