-- ==== Sys2Proof/Machine/Housekeeping.lean ====
section
/-! DEFINITION. The housekeeping commands WIPE and CLRKEY (43_housekeeping.md). -/

namespace Sys2Proof.Machine

/-- R190: WIPE. -/
def execWipe (s : State) : Host.Outcome State Fault Refusal := .next s.wipeScratch.complete

/-- R191: CLRKEY. -/
def execClrkey (s : State) : Host.Outcome State Fault Refusal :=
  .next { s with key := Vector.replicate 32 0, klen := 0 }.complete

end Sys2Proof.Machine
end

