-- ==== Sys2Proof/Machine/Keystream.lean ====
section
/-! DEFINITION. The commands ENC and DEC as one atomic transition (R160, R161). The phases of the
block-counter state machine are in Machine/Sequencer.lean. -/

namespace Sys2Proof.Machine

/-- R160, R173, R209: the checks of ENC and DEC, all before any write; the first that fails. -/
def State.processCheck (s : State) : Option ErrCode :=
  if !s.lengthsOk then some .invalidLength
  else if s.olen ≠ s.ilen then some .lengthMismatch
  else if counterOverflows s.ictr (chunkCount s.ilen.toNat) then some .counterOverflow
  else none

/-- R167: the block counter of chunk `i` as a word; below `2^32` after a passed check. -/
def State.counterWord (s : State) (i : Nat) : Word := BitVec.ofNat 32 (chunkCounter s.ictr i)

/-- R170: the effective address of byte `j` of chunk `i`, in IN and in OUT. -/
def chunkAddr (i j : Nat) : Addr := BitVec.ofNat 64 (64 * i + j)

/-- R160, R170: the first `len` bytes of chunk `i`, in rising order: OUT gets IN xor KS. -/
def State.xorChunk (s : State) (i : Nat) : Nat → State
  | 0 => s
  | j + 1 =>
    let t := s.xorChunk i j
    t.memWrite (chunkAddr i j) (xor8 (t.memRead (chunkAddr i j)) (byteAt t.ks j))

/-- R160: KS takes the keystream block of chunk `i`. The block is computed in W and S, which the wipe
at the end of the command leaves zero; the atomic transition does not show them in between. -/
def State.loadKeystream (s : State) (i : Nat) : State :=
  { s with ks := keystreamBlock s.key s.nonce (s.counterWord i) }

/-- R160, R171: KS becomes zero. -/
def State.scrubKeystream (s : State) : State := { s with ks := Vector.replicate 64 0 }

/-- R160: the body of the loop for chunk `i`. -/
def State.processChunk (s : State) (i : Nat) : State :=
  ((s.loadKeystream i).xorChunk i (chunkLen s.ilen.toNat i)).scrubKeystream

/-- R160: the chunks `0 .. n-1` in order. -/
def State.processChunks (s : State) : Nat → State
  | 0 => s
  | i + 1 => (s.processChunks i).processChunk i

/-- SEQ is back in IDLE with the chunk index and count the state machine ends with (R42, R166, R175;
log entry 5). -/
def State.sequencerDone (s : State) (n : Nat) : State := { s with seq := ⟨.idle, n, n⟩ }

/-- R160, R161: the transition of both commands. -/
def State.process (s : State) : State :=
  match s.processCheck with
  | some e => s.raise e
  | none =>
    let n := chunkCount s.ilen.toNat
    ((s.processChunks n).wipeScratch.sequencerDone n).complete

/-- R160: ENC. -/
def execEnc (s : State) : Host.Outcome State Fault Refusal := .next s.process

/-- R161: DEC, the transition of ENC. -/
def execDec (s : State) : Host.Outcome State Fault Refusal := .next s.process

end Sys2Proof.Machine
end

