-- ==== Sys2Proof/Machine/Mixing.lean ====
section
/-! DEFINITION. The commands that mix W in place: ROUND, QROUND, DROUND (40_wordstate_mixing.md). -/

namespace Sys2Proof.Machine

/-- The shape of the three mixing commands: without WVALID they raise StateUninitialized and W is
unchanged (R208), else W becomes `m` and nothing else changes but ERR (R124). -/
def State.mixTo (s : State) (m : WordState) : State :=
  if s.wvalid then { s with w := m }.complete else s.raise .stateUninitialized

/-- R120: ROUND x, y, z, r. -/
def execRound (x y z : Fin 16) (r : Fin 32) (s : State) : Host.Outcome State Fault Refusal :=
  .next (s.mixTo (roundStep s.w x y z r.val))

/-- R121: QROUND a, b, c, d. -/
def execQround (a b c d : Fin 16) (s : State) : Host.Outcome State Fault Refusal :=
  .next (s.mixTo (quarterRound s.w a b c d))

/-- R122: DROUND. -/
def execDround (s : State) : Host.Outcome State Fault Refusal :=
  .next (s.mixTo (doubleRound s.w))

end Sys2Proof.Machine
end

