-- ==== Sys2Proof/Machine/Dispatch.lean ====
section
/-! DEFINITION. One arm per command (R96): which meaning a command has. -/

namespace Sys2Proof.Machine

def exec (i : Instr) (s : State) : Host.Outcome State Fault Refusal :=
  match i with
  | .round x y z r => Sys2Proof.Machine.execRound x y z r s
  | .qround a b c d => Sys2Proof.Machine.execQround a b c d s
  | .dround => Sys2Proof.Machine.execDround s
  | .init => Sys2Proof.Machine.execInit s
  | .block => Sys2Proof.Machine.execBlock s
  | .ser => Sys2Proof.Machine.execSer s
  | .enc => Sys2Proof.Machine.execEnc s
  | .dec => Sys2Proof.Machine.execDec s
  | .wipe => Sys2Proof.Machine.execWipe s
  | .clrkey => Sys2Proof.Machine.execClrkey s

end Sys2Proof.Machine
end

