-- ==== Sys2Proof/Machine/HostAccess.lean ====
section
/-! DEFINITION. The register space as the host sees it: offsets (R38, R39), which accesses the bus
refuses (R65), what a register read returns and what a register write does (R45). -/

namespace Sys2Proof.Machine

/-- R38: the byte offset of a register. -/
def RegName.offset : RegName → Nat
  | .cmd => 0x00
  | .status => 0x04
  | .ictr => 0x08
  | .klen => 0x0C
  | .nlen => 0x10
  | .ilenLo => 0x18
  | .ilenHi => 0x1C
  | .olenLo => 0x20
  | .olenHi => 0x24
  | .keyw j => 0x40 + 4 * j.val
  | .noncew j => 0x60 + 4 * j.val
  | .w i => 0x80 + 4 * i.val

/-- R65: the bus serves an access of four bytes at a multiple of 4 inside the register space. -/
def busServes (offset width : Nat) : Bool :=
  decide (width = 4) && decide (offset % 4 = 0) && decide (offset < Config.regSpace)

/-- R38: the register at an offset the bus serves; none at a reserved offset (R39). -/
def regAt (offset : Nat) : Option RegName :=
  match offset with
  | 0x00 => some .cmd
  | 0x04 => some .status
  | 0x08 => some .ictr
  | 0x0C => some .klen
  | 0x10 => some .nlen
  | 0x18 => some .ilenLo
  | 0x1C => some .ilenHi
  | 0x20 => some .olenLo
  | 0x24 => some .olenHi
  | _ =>
    if 0x40 ≤ offset ∧ offset < 0x60 then some (.keyw (Fin.ofNat 8 ((offset - 0x40) / 4)))
    else if 0x60 ≤ offset ∧ offset < 0x6C then some (.noncew (Fin.ofNat 3 ((offset - 0x60) / 4)))
    else if 0x80 ≤ offset ∧ offset < 0xC0 then some (.w (Fin.ofNat 16 ((offset - 0x80) / 4)))
    else none

/-- R30, R31: the low half of a length register. -/
def lowHalf (v : BitVec 64) : Word := BitVec.ofNat 32 (slice v 31 0)

/-- R30, R31: the high half of a length register. -/
def highHalf (v : BitVec 64) : Word := BitVec.ofNat 32 (slice v 63 32)

/-- R45: a length register after a write of its low half. -/
def setLowHalf (v : BitVec 64) (x : Word) : BitVec 64 := highHalf v ++ x

/-- R45: a length register after a write of its high half. -/
def setHighHalf (v : BitVec 64) (x : Word) : BitVec 64 := x ++ lowHalf v

/-- R45: what a read of a register returns. -/
def State.readReg (s : State) : RegName → Word
  | .cmd => 0
  | .status => s.status
  | .ictr => s.ictr
  | .klen => s.klen
  | .nlen => s.nlen
  | .ilenLo => lowHalf s.ilen
  | .ilenHi => highHalf s.ilen
  | .olenLo => lowHalf s.olen
  | .olenHi => highHalf s.olen
  | .keyw _ => 0
  | .noncew j => wordOfBytes s.nonce j.val
  | .w i => s.w[i.val]

/-- R45: a host write of a register other than CMD (a write to CMD is `perform`'s). -/
def State.writeReg (s : State) (r : RegName) (v : Word) : State :=
  match r with
  | .cmd => s
  | .status => s
  | .ictr => { s with ictr := v }
  | .klen => { s with klen := v }
  | .nlen => { s with nlen := v }
  | .ilenLo => { s with ilen := setLowHalf s.ilen v }
  | .ilenHi => { s with ilen := setHighHalf s.ilen v }
  | .olenLo => { s with olen := setLowHalf s.olen v }
  | .olenHi => { s with olen := setHighHalf s.olen v }
  | .keyw j => { s with key := setWordOfBytes s.key j.val v }
  | .noncew j => { s with nonce := setWordOfBytes s.nonce j.val v }
  | .w i => { s with w := s.w.set i.val v, wmask := maskWritten s.wmask i }

/-- R45, R39: what a read at an offset the bus serves returns; 0 at a reserved offset. -/
def State.readOffset (s : State) (offset : Nat) : Word :=
  match regAt offset with
  | some r => s.readReg r
  | none => 0

end Sys2Proof.Machine
end

