-- ==== Sys2Proof/Machine/Command.lean ====
section
/-! DEFINITION. Issuing a command (R34, R95, R207) and performing one access of the host (R220). -/

namespace Sys2Proof.Machine

/-- R34, R95, R207: a write of the word `c` to CMD. A word that is no command raises IllegalCommand,
before anything is looked at (R209). -/
def issue (c : Word) (s : State) : Host.Outcome State Fault Refusal :=
  match decode c with
  | .command i => exec i s
  | .illegal _ => .next (s.raise .illegalCommand)

/-- R34, R39, R45: a write at an offset the bus serves; ignored at a reserved offset. -/
def writeOffset (offset : Nat) (v : Word) (s : State) : Host.Outcome State Fault Refusal :=
  match regAt offset with
  | some .cmd => issue v s
  | some r => .next (s.writeReg r v)
  | none => .next s

/-- R220: one access of the host. -/
def perform (m : HostMove) (s : State) : Host.Outcome State Fault Refusal :=
  match m with
  | .writeReg offset width v =>
    if busServes offset width then writeOffset offset v s else .refused .busAccess
  | .readReg offset width =>
    if busServes offset width then .next { s with reply := .word (s.readOffset offset) }
    else .refused .busAccess
  | .writeIn a b => .next { s with inBuf := s.inBuf.write a.toNat b }
  | .readIn a => .next { s with reply := .byte (s.inBuf.read a.toNat) }
  | .writeOut a b => .next { s with outBuf := s.outBuf.write a.toNat b }
  | .readOut a => .next { s with reply := .byte (s.outBuf.read a.toNat) }
  | .reset => .next s.engineReset
  | .commandThenReset c => .next (s.abandon c)

/-- The state in which the oldest pending access is served: the access is taken off the list and the
host has received nothing for it yet (R72, R73; log entries 1, 2). -/
def State.serving (s : State) (rest : List HostMove) : State :=
  { s with pending := rest, reply := .nothing }

/-- The access that issues the command word `c` (R34, R99). -/
def issueMove (c : Word) : HostMove := .writeReg RegName.cmd.offset 4 c

end Sys2Proof.Machine
end

