-- ==== Sys2Proof/Machine/Step.lean ====
section
/-! DEFINITION. One step: the engine serves the host's oldest pending access, or is idle (R72, R73,
R217). -/

namespace Sys2Proof.Machine

/-- One access of the host served to its end, a command atomically (R72); with no access pending the
engine waits and keeps all its state (R35, R217; log entry 7). -/
def step (s : State) : Host.Outcome State Fault Refusal :=
  match s.pending with
  | [] => .next s
  | m :: rest => perform m (s.serving rest)

/-- The state whose very next step runs the command of the opcode-table bits `w`: the host's write of
that word to CMD stands before its other pending accesses (log entry 1). -/
def State.withFetchWord (s : State) (nbits w : Nat) : State :=
  { s with pending := issueMove (BitVec.ofNat 32 (w % 2 ^ nbits)) :: s.pending }

end Sys2Proof.Machine
end

