-- ==== Sys2Proof/Machine/Directives.lean ====
section
/-! DEFINITION. The host directives of R100 as lists of host accesses, and a command in text as the
access that issues it (R99). -/

namespace Sys2Proof.Machine

/-- R100: `WR name, v`. -/
def wrReg (name : RegName) (v : Word) : List HostMove := [.writeReg name.offset 4 v]

/-- R100: `RD name`. -/
def rdReg (name : RegName) : List HostMove := [.readReg name.offset 4]

/-- R100: word `j` of a byte list, absent bytes taken as 0. -/
def wordOfList (bytes : List Byte) (j : Nat) : Word :=
  le32 (bytes.getD (4 * j) 0) (bytes.getD (4 * j + 1) 0) (bytes.getD (4 * j + 2) 0)
    (bytes.getD (4 * j + 3) 0)

/-- R100: `LDKEY b0 b1 ...`; bytes from index 32 on are ignored and KLEN gets the count. -/
def ldKey (bytes : List Byte) : List HostMove :=
  (List.finRange 8).flatMap (fun j => wrReg (.keyw j) (wordOfList bytes j.val)) ++
    wrReg .klen (BitVec.ofNat 32 bytes.length)

/-- R100: `LDNONCE b0 b1 ...`; bytes from index 12 on are ignored and NLEN gets the count. -/
def ldNonce (bytes : List Byte) : List HostMove :=
  (List.finRange 3).flatMap (fun j => wrReg (.noncew j) (wordOfList bytes j.val)) ++
    wrReg .nlen (BitVec.ofNat 32 bytes.length)

/-- R100: `LDCTR v`. -/
def ldCtr (v : Word) : List HostMove := wrReg .ictr v

/-- R100: `LDW i, v`. -/
def ldW (i : Fin 16) (v : Word) : List HostMove := wrReg (.w i) v

/-- R100: `SETILEN n`. -/
def setIlen (n : BitVec 64) : List HostMove :=
  wrReg .ilenLo (lowHalf n) ++ wrReg .ilenHi (highHalf n)

/-- R100: `SETOLEN n`. -/
def setOlen (n : BitVec 64) : List HostMove :=
  wrReg .olenLo (lowHalf n) ++ wrReg .olenHi (highHalf n)

/-- R100: `PUTIN a, b0 b1 ...`. Addresses are `u64`, so past the top they wrap (log entry 8). -/
def putIn (a : Addr) : List Byte → List HostMove
  | [] => []
  | b :: bs => .writeIn a b :: putIn (a + 1) bs

/-- R100: `FILLOUT a, n, b`. -/
def fillOut (a : Addr) (n : Nat) (b : Byte) : List HostMove :=
  (List.range n).map fun k => .writeOut (a + BitVec.ofNat 64 k) b

/-- R100: `GETOUT a, n`. -/
def getOut (a : Addr) (n : Nat) : List HostMove :=
  (List.range n).map fun k => .readOut (a + BitVec.ofNat 64 k)

/-- R100: `RESET`. -/
def resetDirective : List HostMove := [.reset]

/-- R99: issuing a command is a host write of its word to offset 0x00. -/
def issueInstr (i : Instr) : List HostMove := [issueMove (encode i)]

end Sys2Proof.Machine
end

