-- ==== Sys2Proof/Machine/Platform.lean ====
section
/-! DEFINITION. A platform of NINST engines (R8, R215, D14): complete copies of the state that share
nothing. -/

namespace Sys2Proof.Machine

/-- The engines of a platform, in the order of their base addresses (R215: an engine is known by its
base address). -/
structure Platform where
  engines : List State
  deriving DecidableEq, Repr

/-- R215: all engines start in the same reset state. NINST is a parameter, default 1 (R8). So the
counters `freeNext` of all engines start at 0, and the bytes that different engines abandon (R231)
take the same free values. The spec does not tie them to each other: DESIGN CHOICE, unsafe for a
claim that compares abandoned bytes of two engines; log entry 18. -/
def Platform.reset (ninst : Nat := Config.ninst) : Platform :=
  ⟨List.replicate ninst State.reset⟩

/-- One step of engine `k`; a platform without that engine does nothing. -/
def Platform.stepAt (p : Platform) (k : Nat) : Host.Outcome Platform Fault Refusal :=
  match p.engines[k]? with
  | none => .next p
  | some s =>
    match step s with
    | .next t => .next ⟨p.engines.set k t⟩
    | .fault r => .fault r
    | .refused r => .refused r

end Sys2Proof.Machine
end

