-- ==== Sys2Proof/Machine/Sequencer.lean ====
section
/-! DEFINITION. The block-counter state machine of ENC and DEC, phase by phase (R166 to R173). The
host cannot see the phases (R72); `State.process` is the same transition taken at once (R175). -/

namespace Sys2Proof.Machine

/-- R166, row IDLE: the host writes ENC or DEC to CMD. -/
def State.startSequencer (s : State) : State := { s with seq := { s.seq with phase := .check } }

/-- R173: phase CHECK. -/
def State.phaseCheck (s : State) : State :=
  match s.processCheck with
  | some e => { s.raise e with seq := { s.seq with phase := .idle } }
  | none =>
    let n := chunkCount s.ilen.toNat
    { s with seq := ⟨if n = 0 then .final else .gen, 0, n⟩ }

/-- R168: phase GEN. -/
def State.phaseGen (s : State) : State :=
  { s.generate (s.counterWord s.seq.i) with seq := { s.seq with phase := .kser } }

/-- R169: phase KSER; W is discarded as soon as it is serialized. -/
def State.phaseKser (s : State) : State :=
  { s with
    ks := serBytes s.w
    w := Vector.replicate 16 0
    wmask := 0
    seq := { s.seq with phase := .xor } }

/-- R170: phase XOR. -/
def State.phaseXor (s : State) : State :=
  { s.xorChunk s.seq.i (chunkLen s.ilen.toNat s.seq.i) with seq := { s.seq with phase := .scrub } }

/-- R171 and the two SCRUB rows of R166. An index past the count never occurs (log entry 6). -/
def State.phaseScrub (s : State) : State :=
  { s.scrubKeystream with
    seq := ⟨if s.seq.i + 1 < s.seq.n then .gen else .final, s.seq.i + 1, s.seq.n⟩ }

/-- R172: phase FINAL. -/
def State.phaseFinal (s : State) : State :=
  { s.wipeScratch.complete with seq := { s.seq with phase := .idle } }

/-- R166: one phase step; in IDLE the machine waits. -/
def State.phaseStep (s : State) : State :=
  match s.seq.phase with
  | .idle => s
  | .check => s.phaseCheck
  | .gen => s.phaseGen
  | .kser => s.phaseKser
  | .xor => s.phaseXor
  | .scrub => s.phaseScrub
  | .final => s.phaseFinal

/-- `k` phase steps. -/
def State.phaseSteps : Nat → State → State
  | 0, s => s
  | k + 1, s => State.phaseSteps k s.phaseStep

end Sys2Proof.Machine
end

