-- ==== Sys2Proof/Safety.lean ====
section
/-! DEFINITION. What holds of an engine between commands, in the terms the statements use. -/

namespace Sys2Proof.Machine

/-- Commands issued one after the other, up to the first that does not answer a next state. -/
def execAll : List Instr → State → Host.Outcome State Fault Refusal
  | [], s => .next s
  | i :: is, s =>
    match exec i s with
    | .next t => execAll is t
    | .fault r => .fault r
    | .refused r => .refused r

/-- Accesses of the host served one after the other, up to the first that is refused. -/
def performAll : List HostMove → State → Host.Outcome State Fault Refusal
  | [], s => .next s
  | m :: ms, s =>
    match perform m s with
    | .next t => performAll ms t
    | .fault r => .fault r
    | .refused r => .refused r

/-- R23, R24, R35: S and KS are zero and the sequencer is idle whenever no command is executing. -/
structure State.Quiet (s : State) : Prop where
  snapZero : s.snap = Vector.replicate 16 0
  ksZero : s.ks = Vector.replicate 64 0
  seqIdle : s.seq.phase = .idle

/-- R35: the ranges of SEQ.i and SEQ.n. -/
def State.SeqInRange (s : State) : Prop := s.seq.i < 2 ^ 58 ∧ s.seq.n ≤ 2 ^ 58

/-- R45: a word of W whose WMASK bit is clear reads 0. -/
def State.UnwrittenZero (s : State) : Prop :=
  ∀ i : Fin 16, s.wmask.getLsbD i.val = false → s.w[i.val] = 0

/-- IN and OUT keep the canonical form. -/
def State.BuffersCanonical (s : State) : Prop := s.inBuf.wf = true ∧ s.outBuf.wf = true

/-- The invariant of an engine between accesses of the host. -/
structure State.Inv (s : State) : Prop where
  quiet : s.Quiet
  seqInRange : s.SeqInRange
  unwrittenZero : s.UnwrittenZero
  buffers : s.BuffersCanonical

/-- R40: every register holds the value of the table. -/
structure State.RegistersReset (s : State) : Prop where
  w : s.w = Vector.replicate 16 0
  wmask : s.wmask = 0
  snap : s.snap = Vector.replicate 16 0
  ks : s.ks = Vector.replicate 64 0
  key : s.key = Vector.replicate 32 0
  klen : s.klen = 0
  nonce : s.nonce = Vector.replicate 12 0
  nlen : s.nlen = 0
  ictr : s.ictr = 0
  ilen : s.ilen = 0
  olen : s.olen = 0
  err : s.err = .ok
  seq : s.seq = ⟨.idle, 0, 0⟩

/-- R160, R165: the checks of ENC and DEC hold, said of the registers alone: both lengths right, the
buffers of one length, and the counter of the last chunk, if there is one, fits 32 bits. -/
structure State.ProcessReady (s : State) : Prop where
  keyLength : s.klen = 32#32
  nonceLength : s.nlen = 12#32
  sameLength : s.olen = s.ilen
  counterFits : s.ilen = 0#64 ∨ s.ictr.toNat + (s.ilen.toNat + 63) / 64 - 1 ≤ 2 ^ 32 - 1

/-- The registers the host can read, and the buffers and length registers, agree: what is not KEY,
S or KS (R43, R214, R220). -/
structure State.PublicEq (s t : State) : Prop where
  w : s.w = t.w
  wmask : s.wmask = t.wmask
  klen : s.klen = t.klen
  nonce : s.nonce = t.nonce
  nlen : s.nlen = t.nlen
  ictr : s.ictr = t.ictr
  ilen : s.ilen = t.ilen
  olen : s.olen = t.olen
  err : s.err = t.err
  seq : s.seq = t.seq
  inBuf : s.inBuf = t.inBuf
  outBuf : s.outBuf = t.outBuf
  pending : s.pending = t.pending
  reply : s.reply = t.reply
  freeNext : s.freeNext = t.freeNext

end Sys2Proof.Machine
end

