-- ==== Sys2Proof/Certificates/Slice0/Obligations.lean ====
section
/-! DEFINITION. The statements about the model, from the numbered rules of spec/. -/

open Sys2Proof Sys2Proof.Machine

/-! ## Words and bytes -/

/-- R12: bit `i` of a word is bit `(i + r) mod 32` of its left rotation by `r`; a rotation by 0 is the
identity. -/
def Obligations.RotateMovesEveryBit : Prop :=
  ∀ (v : Word) (r : Fin 32) (i : Fin 32),
    (rotl32 v r.val).toNat
        = v.toNat * 2 ^ r.val % 2 ^ 32 + v.toNat / 2 ^ (32 - r.val) ∧
      (rotl32 v r.val).getLsbD ((i.val + r.val) % 32) = v.getLsbD i.val ∧
      rotl32 v 0 = v

/-- R13: little-endian assembly is the sum the rule writes, and the bytes of a word at increasing
indices are its inverse. -/
def Obligations.LittleEndianAssemblyAndItsInverse : Prop :=
  (∀ b0 b1 b2 b3 : Byte,
    (le32 b0 b1 b2 b3).toNat
        = b0.toNat + 2 ^ 8 * b1.toNat + 2 ^ 16 * b2.toNat + 2 ^ 24 * b3.toNat ∧
      byteOf (le32 b0 b1 b2 b3) 0 = b0 ∧ byteOf (le32 b0 b1 b2 b3) 1 = b1 ∧
      byteOf (le32 b0 b1 b2 b3) 2 = b2 ∧ byteOf (le32 b0 b1 b2 b3) 3 = b3) ∧
  ∀ v : Word, le32 (byteOf v 0) (byteOf v 1) (byteOf v 2) (byteOf v 3) = v

/-- R63, R144: word `j` of the serialized matrix, read back little-endian, is word `j` of the
matrix, so serialization loses nothing. -/
def Obligations.SerializationReadsBack : Prop :=
  ∀ (m : WordState) (j : Fin 16), wordOfBytes (serBytes m) j.val = m[j.val]

/-! ## Encoding -/

/-- Words the spec writes out (R99, R120, R121, R122, 95_test_vectors.md V-R5, V-X4) decode to the
commands they stand for. -/
def Obligations.SpecWordsDecode : Prop :=
  decode 0x01010130#32 = .command (.round 0 3 1 16) ∧
  decode 0x01001def#32 = .command (.round 15 14 13 1) ∧
  decode 0x0101ffff#32 = .command (.round 15 15 15 31) ∧
  decode 0x0200D872#32 = .command (.qround 2 7 8 13) ∧
  decode 0x02003210#32 = .command (.qround 0 1 2 3) ∧
  decode 0x03000000#32 = .command .dround ∧
  decode 0x04000000#32 = .command .init ∧
  decode 0x05000000#32 = .command .block ∧
  decode 0x06000000#32 = .command .ser ∧
  decode 0x07000000#32 = .command .enc ∧
  decode 0x08000000#32 = .command .dec ∧
  decode 0x09000000#32 = .command .wipe ∧
  decode 0x0A000000#32 = .command .clrkey

/-- Every command, with every value of every operand field, is what its own word decodes to (R94:
every value of every field is legal). -/
def Obligations.DecodeOfEncodeIsTheCommand : Prop :=
  ∀ i : Instr, decode (encode i) = .command i

/-- A word that decodes to a command is that command's word, so every command has one word only
(R90, R95). -/
def Obligations.EncodeOfDecodeIsTheWord : Prop :=
  ∀ (c : Word) (i : Instr), decode c = .command i → encode i = c

/-- R95: decoding by opcode field, must-be-zero field and operand fields is the same as matching the
rows of the table by mask and match; the rows are disjoint. -/
def Obligations.DecoderAgreesWithTheOpcodeTable : Prop :=
  ∀ c : Word,
    (slice c 31 24 ∉ [1, 2, 3, 4, 5, 6, 7, 8, 9, 10] → decode c = .illegal .unknownOpcode) ∧
    (slice c 31 24 = 1 → slice c 23 17 ≠ 0 → decode c = .illegal .nonzeroMustBeZero) ∧
    (slice c 31 24 = 2 → slice c 23 16 ≠ 0 → decode c = .illegal .nonzeroMustBeZero) ∧
    (3 ≤ slice c 31 24 → slice c 31 24 ≤ 10 → slice c 23 0 ≠ 0 →
      decode c = .illegal .nonzeroMustBeZero) ∧
    (∀ x y z r, decode c = .command (.round x y z r) →
      x.val = slice c 3 0 ∧ y.val = slice c 7 4 ∧ z.val = slice c 11 8 ∧ r.val = slice c 16 12) ∧
    (∀ a b d e, decode c = .command (.qround a b d e) →
      a.val = slice c 3 0 ∧ b.val = slice c 7 4 ∧ d.val = slice c 11 8 ∧ e.val = slice c 15 12) ∧
    (∀ i, decode c = .command i →
      ∃ row ∈ opcodeTable, row.mnemonic = i.mnemonic ∧ row.accepts c = true) ∧
    (∀ row ∈ opcodeTable, row.accepts c = true →
      ∃ i, decode c = .command i ∧ i.mnemonic = row.mnemonic) ∧
    opcodeTable.Pairwise fun p q => ¬(p.accepts c = true ∧ q.accepts c = true)

/-- R97, R207: a word with an opcode outside R96 or a nonzero must-be-zero bit is illegal, and an
illegal word written to CMD sets ERR to 6 and changes nothing else; the all-zero and the all-ones
word are illegal. -/
def Obligations.IllegalWordRaisesIllegalCommandOnly : Prop :=
  (∀ c : Word,
    (slice c 31 24 = 0 ∨ 0x0B ≤ slice c 31 24 ∨
      (slice c 31 24 = 1 ∧ slice c 23 17 ≠ 0) ∨ (slice c 31 24 = 2 ∧ slice c 23 16 ≠ 0) ∨
      (3 ≤ slice c 31 24 ∧ slice c 31 24 ≤ 10 ∧ slice c 23 0 ≠ 0)) ↔
    ∃ why, decode c = .illegal why) ∧
  (∀ (c : Word) (s : State), (∃ why, decode c = .illegal why) →
    issue c s = .next { s with err := .illegalCommand }) ∧
  ErrCode.illegalCommand.code = 6#4 ∧
  (∃ why, decode 0x00000000#32 = .illegal why) ∧ ∃ why, decode 0xFFFFFFFF#32 = .illegal why

/-- R96, R99: a command's assembler line assembles to it; a line assembles to something exactly when
its mnemonic, its operand count and its operand ranges are right, and then to the command it names.
That a line with an operand out of range assembles to nothing is the model's deduction from R92, R93,
R94 and U5 (log entry 14, DEDUCED). -/
def Obligations.AssemblerAgreesWithTheCommands : Prop :=
  (∀ i : Instr, assemble i.asm = some i) ∧
  (∀ line : AsmLine, (∃ i, assemble line = some i) ↔ line.wellFormed = true) ∧
  ∀ (line : AsmLine) (i : Instr), assemble line = some i → i.asm = line

/-! ## One step -/

/-- R34, R72: a write of any word to CMD, legal or illegal, issues that word, and where it is the
host's oldest access the step issues it on the state in which that access has been taken. Where the
word decodes to `i`, the step is the command `i` on that state; the same of `withFetchWord`. That the
accesses wait in `pending` and the answer stands in `reply` is the model's choice (log entries 1, 2,
DESIGN CHOICE). -/
def Obligations.StepRunsTheDecodedCommand : Prop :=
  (∀ (s : State) (c : Word), perform (.writeReg 0 4 c) s = issue c s) ∧
  (∀ (s : State) (c : Word) (rest : List HostMove), s.pending = .writeReg 0 4 c :: rest →
    step s = issue c { s with pending := rest, reply := .nothing }) ∧
  (∀ (s : State) (c : Word) (rest : List HostMove) (i : Instr),
    s.pending = .writeReg 0 4 c :: rest → decode c = .command i →
    step s = exec i { s with pending := rest, reply := .nothing }) ∧
  ∀ (s : State) (w : Nat) (i : Instr),
    w < 2 ^ 32 → decode (BitVec.ofNat 32 w) = .command i →
    step (s.withFetchWord 32 w) = exec i { s with reply := .nothing }

/-- R217: with no access pending the engine keeps all its state. -/
def Obligations.IdleEngineKeepsItsState : Prop :=
  ∀ s : State, s.pending = [] → step s = .next s

/-- R65: a register access that is not four bytes at a multiple of 4 below 0x100 is refused, and it
is the only access that is; every other access is served to a next state. -/
def Obligations.OnlyBadRegisterAccessesAreRefused : Prop :=
  ∀ (s : State) (rest : List HostMove),
    (∀ offset width v, s.pending = .writeReg offset width v :: rest →
      (width = 4 ∧ offset % 4 = 0 ∧ offset < 0x100 → ∃ t, step s = .next t) ∧
      (¬(width = 4 ∧ offset % 4 = 0 ∧ offset < 0x100) → step s = .refused .busAccess)) ∧
    (∀ offset width, s.pending = .readReg offset width :: rest →
      (width = 4 ∧ offset % 4 = 0 ∧ offset < 0x100 → ∃ t, step s = .next t) ∧
      (¬(width = 4 ∧ offset % 4 = 0 ∧ offset < 0x100) → step s = .refused .busAccess)) ∧
    (∀ m, s.pending = m :: rest → (∀ o n v, m ≠ .writeReg o n v) → (∀ o n, m ≠ .readReg o n) →
      ∃ t, step s = .next t)

/-! ## The mixing commands -/

/-- R120: ROUND. Without WVALID it raises StateUninitialized and changes nothing else. Else `W[x]` and
`W[y]` take the values of the three statements in order and every other word, and everything else
but ERR, is unchanged; with `y = x` the word ends as 0. -/
def Obligations.RoundResult : Prop :=
  ∀ (x y z : Fin 16) (r : Fin 32) (s : State),
    encode (.round x y z r)
      = BitVec.ofNat 32 (0x01000000 + r.val * 2 ^ 12 + z.val * 2 ^ 8 + y.val * 2 ^ 4 + x.val) ∧
    (s.wmask ≠ 0xFFFF#16 →
      exec (.round x y z r) s = .next { s with err := .stateUninitialized }) ∧
    (s.wmask = 0xFFFF#16 →
      ∃ m : WordState,
        exec (.round x y z r) s = .next { s with w := m, err := .ok } ∧
        (∀ k : Fin 16, k ≠ x → k ≠ y → m[k.val] = s.w[k.val]) ∧
        (x ≠ y →
          m[x.val] = add32 s.w[x.val] s.w[z.val] ∧
          m[y.val] = rotl32 (xor32 s.w[y.val] (add32 s.w[x.val] s.w[z.val])) r.val) ∧
        (x = y → m[x.val] = 0))

/-- R121, a sentence the spec marks as its own inference from R120: QROUND has exactly the effect of
the four ROUND commands, for all indices, repeated or not; words outside the four indices, and
everything else but ERR, are unchanged; four zero words stay zero. Without WVALID it raises
StateUninitialized only. -/
def Obligations.QroundIsFourRounds : Prop :=
  ∀ (a b c d : Fin 16) (s : State),
    encode (.qround a b c d)
      = BitVec.ofNat 32 (0x02000000 + d.val * 2 ^ 12 + c.val * 2 ^ 8 + b.val * 2 ^ 4 + a.val) ∧
    (s.wmask ≠ 0xFFFF#16 →
      exec (.qround a b c d) s = .next { s with err := .stateUninitialized }) ∧
    (s.wmask = 0xFFFF#16 →
      ∃ m : WordState,
        exec (.qround a b c d) s = .next { s with w := m, err := .ok } ∧
        execAll [.round a d b 16, .round c b d 12, .round a d b 8, .round c b d 7] s
          = .next { s with w := m, err := .ok } ∧
        (∀ k : Fin 16, k ≠ a → k ≠ b → k ≠ c → k ≠ d → m[k.val] = s.w[k.val]) ∧
        (s.w[a.val] = 0 → s.w[b.val] = 0 → s.w[c.val] = 0 → s.w[d.val] = 0 →
          m[a.val] = 0 ∧ m[b.val] = 0 ∧ m[c.val] = 0 ∧ m[d.val] = 0))

/-- R121, corner case (b), the spec's own inference from R120 (f): QROUND on one index four times
leaves that word 0 whatever W held, and every other word as it was. -/
def Obligations.QroundOnOneIndexClearsTheWord : Prop :=
  ∀ (a : Fin 16) (s : State), s.wmask = 0xFFFF#16 →
    exec (.qround a a a a) s = .next { s with w := s.w.set a.val 0, err := .ok }

/-- R122: DROUND has exactly the effect of the eight QROUND commands in order; the all-zero matrix is
a fixed point; without WVALID it raises StateUninitialized only. -/
def Obligations.DroundIsEightQrounds : Prop :=
  ∀ s : State,
    (s.wmask ≠ 0xFFFF#16 → exec .dround s = .next { s with err := .stateUninitialized }) ∧
    (s.wmask = 0xFFFF#16 →
      ∃ m : WordState,
        exec .dround s = .next { s with w := m, err := .ok } ∧
        execAll
          [.qround 0 4 8 12, .qround 1 5 9 13, .qround 2 6 10 14, .qround 3 7 11 15,
           .qround 0 5 10 15, .qround 1 6 11 12, .qround 2 7 8 13, .qround 3 4 9 14] s
          = .next { s with w := m, err := .ok } ∧
        (s.w = Vector.replicate 16 0 → m = Vector.replicate 16 0))

/-- R122: quarter rounds on disjoint sets of words commute, as the four columns do with each other and
the four diagonals with each other. -/
def Obligations.DisjointQuarterRoundsCommute : Prop :=
  ∀ (a b c d e f g h : Fin 16) (s : State),
    (∀ k ∈ [a, b, c, d], k ∉ [e, f, g, h]) → s.wmask = 0xFFFF#16 →
    ∃ t, execAll [.qround a b c d, .qround e f g h] s = .next t ∧
      execAll [.qround e f g h, .qround a b c d] s = .next t

/-- R237: a round step with three distinct indices can be undone by the two statements the rule
gives, so W after a mixing command still determines W before it. -/
def Obligations.RoundWithDistinctIndicesCanBeUndone : Prop :=
  ∀ (x y z : Fin 16) (r : Fin 32) (s : State),
    x ≠ y → x ≠ z → y ≠ z → s.wmask = 0xFFFF#16 →
    ∃ t, exec (.round x y z r) s = .next t ∧
      xor32 (rotl32 t.w[y.val] ((32 - r.val) % 32)) t.w[x.val] = s.w[y.val] ∧
      t.w[x.val] - t.w[z.val] = s.w[x.val]

/-! ## The block commands -/

/-- R140, R141: INIT. With a wrong declared length it raises InvalidLength only; else W takes the
constants, the key words, the counter as it is and the nonce words, WMASK is all ones and nothing
else changes but ERR, for every ICTR. -/
def Obligations.InitResult : Prop :=
  ∀ s : State,
    (s.klen ≠ 32#32 ∨ s.nlen ≠ 12#32 → exec .init s = .next { s with err := .invalidLength }) ∧
    (s.klen = 32#32 → s.nlen = 12#32 →
      ∃ m : WordState,
        exec .init s = .next { s with w := m, wmask := 0xFFFF#16, err := .ok } ∧
        m[0] = 0x61707865#32 ∧ m[1] = 0x3320646e#32 ∧ m[2] = 0x79622d32#32 ∧
        m[3] = 0x6b206574#32 ∧
        (∀ j : Fin 8, m[4 + j.val] =
          le32 s.key[4 * j.val] s.key[4 * j.val + 1] s.key[4 * j.val + 2] s.key[4 * j.val + 3]) ∧
        m[12] = s.ictr ∧
        ∀ j : Fin 3, m[13 + j.val] =
          le32 s.nonce[4 * j.val] s.nonce[4 * j.val + 1] s.nonce[4 * j.val + 2]
            s.nonce[4 * j.val + 3])

/-- R145: BLOCK. With a wrong declared length it raises InvalidLength only; else W is InitWords of
the registers put through ten double rounds and added to InitWords word by word, that is BlockWords,
WMASK is all ones, S is zero and nothing else changes but ERR, for every ICTR. -/
def Obligations.BlockResult : Prop :=
  ∀ s : State,
    (s.klen ≠ 32#32 ∨ s.nlen ≠ 12#32 → exec .block s = .next { s with err := .invalidLength }) ∧
    (s.klen = 32#32 → s.nlen = 12#32 →
      ∃ m : WordState,
        exec .block s
          = .next { s with
              w := m, wmask := 0xFFFF#16, snap := Vector.replicate 16 0, err := .ok } ∧
        (∀ i : Fin 16, m[i.val] =
          add32 (doubleRounds 10 (initWords s.key s.nonce s.ictr))[i.val]
            (initWords s.key s.nonce s.ictr)[i.val]) ∧
        m = blockWords s.key s.nonce s.ictr)

/-- R145, corner case (a), the spec's own inference: BLOCK leaves in W what the host gets by INIT,
ten DROUND and adding the matrix of INIT back word by word. -/
def Obligations.BlockIsTheHostSequence : Prop :=
  ∀ s : State, s.klen = 32#32 → s.nlen = 12#32 →
    ∃ m0 m10 m : WordState,
      exec .init s = .next { s with w := m0, wmask := 0xFFFF#16, err := .ok } ∧
      execAll (List.replicate 10 .dround) { s with w := m0, wmask := 0xFFFF#16, err := .ok }
        = .next { s with w := m10, wmask := 0xFFFF#16, err := .ok } ∧
      (∀ i : Fin 16, m[i.val] = add32 m10[i.val] m0[i.val]) ∧
      exec .block s
        = .next { s with
            w := m, wmask := 0xFFFF#16, snap := Vector.replicate 16 0, err := .ok }

/-- R150: SER. StateUninitialized comes before InvalidLength, and neither writes OUT; else byte `k` of
`W[i]` is at OUT address `4i + k`, every byte from address 64 on is unchanged and nothing else
changes but ERR. -/
def Obligations.SerResult : Prop :=
  ∀ s : State,
    (s.wmask ≠ 0xFFFF#16 → exec .ser s = .next { s with err := .stateUninitialized }) ∧
    (s.wmask = 0xFFFF#16 → s.olen ≠ 64#64 →
      exec .ser s = .next { s with err := .invalidLength }) ∧
    (s.wmask = 0xFFFF#16 → s.olen = 64#64 →
      ∃ m : Memory,
        exec .ser s = .next { s with outBuf := m, err := .ok } ∧
        (∀ (i : Fin 16) (k : Fin 4), m.read (4 * i.val + k.val) = byteOf s.w[i.val] k.val) ∧
        ∀ a, 64 ≤ a → m.read a = s.outBuf.read a)

/-- R150, corner case (d), the spec's own inference: BLOCK and then SER leaves the keystream block of
ICTR in `OUT[0..63]`. -/
def Obligations.BlockThenSerGivesTheKeystream : Prop :=
  ∀ s : State, s.klen = 32#32 → s.nlen = 12#32 → s.olen = 64#64 →
    ∃ t, execAll [.block, .ser] s = .next t ∧ t.err = .ok ∧
      ∀ j : Fin 64, t.outBuf.read j.val = (keystreamBlock s.key s.nonce s.ictr)[j.val]

/-! ## ENC and DEC -/

/-- R160, R161: ENC and DEC. A failed check raises its error only, the first in the order length,
mismatch, overflow. Else every byte of the chunks is the input byte xor the keystream byte of the
chunk's counter, every byte of OUT from ILEN on is unchanged, W, WMASK, S and KS are zero, SEQ is
idle and nothing else changes but ERR. -/
def Obligations.EncAndDecResult : Prop :=
  ∀ (i : Instr) (s : State), i = .enc ∨ i = .dec →
    (s.klen ≠ 32#32 ∨ s.nlen ≠ 12#32 → exec i s = .next { s with err := .invalidLength }) ∧
    (s.klen = 32#32 → s.nlen = 12#32 → s.olen ≠ s.ilen →
      exec i s = .next { s with err := .lengthMismatch }) ∧
    (s.klen = 32#32 → s.nlen = 12#32 → s.olen = s.ilen →
      1 ≤ (s.ilen.toNat + 63) / 64 →
      s.ictr.toNat + (s.ilen.toNat + 63) / 64 - 1 > 2 ^ 32 - 1 →
      exec i s = .next { s with err := .counterOverflow }) ∧
    (s.ProcessReady →
      ∃ (m : Memory) (q : Sequencer),
        exec i s
          = .next { s with
              w := Vector.replicate 16 0, wmask := 0, snap := Vector.replicate 16 0,
              ks := Vector.replicate 64 0, err := .ok, seq := q, outBuf := m } ∧
        q.phase = .idle ∧
        (∀ k j, k < (s.ilen.toNat + 63) / 64 → j < min 64 (s.ilen.toNat - 64 * k) →
          m.read (64 * k + j) =
            xor8 (s.inBuf.read (64 * k + j))
              (byteAt (keystreamBlock s.key s.nonce (BitVec.ofNat 32 (s.ictr.toNat + k))) j)) ∧
        ∀ a, s.ilen.toNat ≤ a → m.read a = s.outBuf.read a)

/-- R161: for every state, the transition of DEC is the transition of ENC. -/
def Obligations.DecIsTheTransitionOfEnc : Prop :=
  ∀ s : State, exec .dec s = exec .enc s

/-- R164: the chunk count and the chunks of an input of `L` bytes; they cover every address below `L`
exactly once. -/
def Obligations.ChunksCoverTheInput : Prop :=
  ∀ L : Nat, L < 2 ^ 64 →
    chunkCount L = (L + 63) / 64 ∧
    (L = 0 → chunkCount L = 0) ∧ (L ≠ 0 → chunkCount L = 1 + (L - 1) / 64) ∧
    chunkCount L ≤ 2 ^ 58 ∧
    (∀ i, i < chunkCount L → chunkLen L i = min 64 (L - 64 * i)) ∧
    (∀ i, i + 1 < chunkCount L → chunkLen L i = 64) ∧
    (∀ i, i + 1 = chunkCount L →
      chunkLen L i = L - 64 * (chunkCount L - 1) ∧ 1 ≤ chunkLen L i ∧ chunkLen L i ≤ 64) ∧
    ∀ a, a < L → ∃! i, i < chunkCount L ∧ 64 * i ≤ a ∧ a < 64 * i + chunkLen L i

/-- R165: with right lengths, ENC and DEC raise CounterOverflow exactly when the counter of some chunk
does not fit 32 bits, and then change nothing but ERR. -/
def Obligations.CounterOverflowExactlyWhenAChunkNeedsIt : Prop :=
  ∀ (i : Instr) (s : State), i = .enc ∨ i = .dec →
    s.klen = 32#32 → s.nlen = 12#32 → s.olen = s.ilen →
    ((∃ t, exec i s = .next t ∧ t.err = .counterOverflow) ↔
      ∃ k, k < (s.ilen.toNat + 63) / 64 ∧ s.ictr.toNat + k > 2 ^ 32 - 1) ∧
    ((∃ k, k < (s.ilen.toNat + 63) / 64 ∧ s.ictr.toNat + k > 2 ^ 32 - 1) →
      exec i s = .next { s with err := .counterOverflow })

/-- R174: with zero lengths and good key and nonce lengths ENC and DEC touch no byte of IN or OUT,
wipe W and complete, for every ICTR. -/
def Obligations.EmptyInputCompletes : Prop :=
  ∀ (i : Instr) (s : State), i = .enc ∨ i = .dec →
    s.klen = 32#32 → s.nlen = 12#32 → s.ilen = 0#64 → s.olen = 0#64 →
    ∃ q : Sequencer, q.phase = .idle ∧
      exec i s
        = .next { s with
            w := Vector.replicate 16 0, wmask := 0, snap := Vector.replicate 16 0,
            ks := Vector.replicate 64 0, err := .ok, seq := q }

/-- R179: ENC and DEC write every byte of `OUT[0 .. ILEN-1]` with its final value and set ERR to 0, or
write no byte of OUT and leave ERR 1, 3 or 4. -/
def Obligations.EncAndDecAreAllOrNothing : Prop :=
  ∀ (i : Instr) (s : State), i = .enc ∨ i = .dec →
    ∃ t, exec i s = .next t ∧
      ((t.err = .ok ∧ ∀ a, a < s.ilen.toNat →
          t.outBuf.read a =
            xor8 (s.inBuf.read a)
              (byteAt (keystreamBlock s.key s.nonce (BitVec.ofNat 32 (s.ictr.toNat + a / 64)))
                (a % 64))) ∨
       ((t.err = .invalidLength ∨ t.err = .lengthMismatch ∨ t.err = .counterOverflow) ∧
          ∀ a, t.outBuf.read a = s.outBuf.read a))

/-- R177, which the spec marks as its own inference from R162: encryption, then decryption of the
output, restores the input (with either command in either place). -/
def Obligations.DecryptionRestoresTheInput : Prop :=
  ∀ (i j : Instr) (s t : State) (buf : Memory),
    i = .enc ∨ i = .dec → j = .enc ∨ j = .dec →
    exec i s = .next t → t.err = .ok →
    (∀ a, a < s.ilen.toNat → buf.read a = t.outBuf.read a) →
    ∃ u, exec j { t with inBuf := buf } = .next u ∧ u.err = .ok ∧
      ∀ a, a < s.ilen.toNat → u.outBuf.read a = s.inBuf.read a

/-- R178, first sentence: over an all-zero input the output is the keystream. -/
def Obligations.ZeroInputGivesTheKeystream : Prop :=
  ∀ s : State, s.ProcessReady → (∀ a, a < s.ilen.toNat → s.inBuf.read a = 0) →
    ∃ t, exec .enc s = .next t ∧ t.err = .ok ∧
      ∀ a, a < s.ilen.toNat →
        t.outBuf.read a =
          byteAt (keystreamBlock s.key s.nonce (BitVec.ofNat 32 (s.ictr.toNat + a / 64))) (a % 64)

/-- R178: a message split after `k` chunks and processed by two commands, the second with the counter
`ICTR + k`, gives piece by piece the bytes of one command over the whole message. -/
def Obligations.MessageMayBeSplitAtAChunk : Prop :=
  ∀ (s : State) (k : Nat) (buf : Memory),
    s.ProcessReady → 64 * k ≤ s.ilen.toNat → s.ictr.toNat + k ≤ 2 ^ 32 - 1 →
    (∀ a, a < s.ilen.toNat - 64 * k → buf.read a = s.inBuf.read (64 * k + a)) →
    ∃ t t1 t2,
      exec .enc s = .next t ∧ t.err = .ok ∧
      exec .enc { s with ilen := BitVec.ofNat 64 (64 * k), olen := BitVec.ofNat 64 (64 * k) }
        = .next t1 ∧ t1.err = .ok ∧
      exec .enc { s with
          ictr := BitVec.ofNat 32 (s.ictr.toNat + k)
          ilen := BitVec.ofNat 64 (s.ilen.toNat - 64 * k)
          olen := BitVec.ofNat 64 (s.ilen.toNat - 64 * k)
          inBuf := buf } = .next t2 ∧ t2.err = .ok ∧
      (∀ a, a < 64 * k → t1.outBuf.read a = t.outBuf.read a) ∧
      ∀ a, a < s.ilen.toNat - 64 * k → t2.outBuf.read a = t.outBuf.read (64 * k + a)

/-- R175, which the spec marks as its own inference: the run of the state machine of R166 from IDLE
back to IDLE has the same effect on every piece of state as the one atomic transition of ENC and DEC.
That the two agree on SEQ.i and SEQ.n rests on log entry 5 (DEDUCED). -/
def Obligations.PhasesRefineTheAtomicCommand : Prop :=
  ∀ (i : Instr) (s : State), i = .enc ∨ i = .dec → s.seq.phase = .idle →
    (s.ProcessReady →
      exec i s = .next (State.phaseSteps (2 + 4 * ((s.ilen.toNat + 63) / 64)) s.startSequencer)) ∧
    (¬s.ProcessReady → exec i s = .next (State.phaseSteps 1 s.startSequencer))

/-- R176: a successful ENC or DEC takes exactly `2 + 4n` phase steps after IDLE, a failing one takes
one, and every command ends. -/
def Obligations.PhaseStepsUntilIdle : Prop :=
  (∀ s : State, s.ProcessReady →
    (∀ k, k < 2 + 4 * ((s.ilen.toNat + 63) / 64) →
      (State.phaseSteps k s.startSequencer).seq.phase ≠ .idle) ∧
    (State.phaseSteps (2 + 4 * ((s.ilen.toNat + 63) / 64)) s.startSequencer).seq.phase = .idle) ∧
  (∀ s : State, ¬s.ProcessReady →
    s.startSequencer.seq.phase ≠ .idle ∧
    (State.phaseSteps 1 s.startSequencer).seq.phase = .idle) ∧
  ∀ (i : Instr) (s : State), ∃ t, exec i s = .next t

/-! ## Housekeeping -/

/-- R190: WIPE zeroes W, WMASK, S and KS, sets ERR to 0 and changes nothing else; after it ROUND,
QROUND, DROUND and SER raise StateUninitialized. -/
def Obligations.WipeResult : Prop :=
  ∀ s : State, ∃ t,
    exec .wipe s = .next t ∧
    t = { s with
          w := Vector.replicate 16 0, wmask := 0, snap := Vector.replicate 16 0,
          ks := Vector.replicate 64 0, err := .ok } ∧
    (∀ x y z r, exec (.round x y z r) t = .next { t with err := .stateUninitialized }) ∧
    (∀ a b c d, exec (.qround a b c d) t = .next { t with err := .stateUninitialized }) ∧
    exec .dround t = .next { t with err := .stateUninitialized } ∧
    exec .ser t = .next { t with err := .stateUninitialized }

/-- R191: CLRKEY zeroes KEY and KLEN, sets ERR to 0 and changes nothing else; after it INIT, BLOCK,
ENC and DEC raise InvalidLength; CLRKEY twice is the same as once. -/
def Obligations.ClrkeyResult : Prop :=
  ∀ s : State, ∃ t,
    exec .clrkey s = .next t ∧
    t = { s with key := Vector.replicate 32 0, klen := 0, err := .ok } ∧
    (∀ i : Instr, i = .init ∨ i = .block ∨ i = .enc ∨ i = .dec →
      exec i t = .next { t with err := .invalidLength }) ∧
    exec .clrkey t = .next t

/-! ## Errors -/

/-- R200: the codes of the eight errors, and which command may end with which of them; codes 2 and 5
are raised by nothing, code 6 by exactly the words that are no command. -/
def Obligations.ErrorCodesAndWhoRaisesThem : Prop :=
  (ErrCode.ok.code = 0#4 ∧ ErrCode.invalidLength.code = 1#4 ∧ ErrCode.emptyInput.code = 2#4 ∧
    ErrCode.lengthMismatch.code = 3#4 ∧ ErrCode.counterOverflow.code = 4#4 ∧
    ErrCode.randomSourceError.code = 5#4 ∧ ErrCode.illegalCommand.code = 6#4 ∧
    ErrCode.stateUninitialized.code = 7#4) ∧
  (∀ (i : Instr) (s : State), ∃ t, exec i s = .next t ∧
    (t.err = .ok ∨
      (t.err = .invalidLength ∧ i ∈ [.init, .block, .enc, .dec, .ser]) ∨
      (t.err = .lengthMismatch ∧ i ∈ [.enc, .dec]) ∨
      (t.err = .counterOverflow ∧ i ∈ [.enc, .dec]) ∨
      (t.err = .stateUninitialized ∧
        ((∃ x y z r, i = .round x y z r) ∨ (∃ a b c d, i = .qround a b c d) ∨
          i ∈ [.dround, .ser])))) ∧
  ∀ (c : Word) (s : State), ∃ t, issue c s = .next t ∧
    (t.err = .illegalCommand ↔ ∃ why, decode c = .illegal why)

/-- R211: when a write to CMD ends with an error, the state after it is the state before it but for
ERR. -/
def Obligations.FailedCommandChangesOnlyErr : Prop :=
  ∀ (c : Word) (s t : State), issue c s = .next t → t.err ≠ .ok → t = { s with err := t.err }

/-- R213: ERR is not sticky. A command's outcome, ERR included, does not depend on what ERR held. -/
def Obligations.OutcomeDoesNotDependOnTheOldErr : Prop :=
  ∀ (c : Word) (s : State) (e : ErrCode), issue c { s with err := e } = issue c s

/-! ## What a command may change -/

/-- R42: ROUND, QROUND, DROUND, INIT, BLOCK, WIPE and CLRKEY change only what the table lists for
each, and no byte of IN or OUT. -/
def Obligations.RegisterCommandsFrame : Prop :=
  ∀ (i : Instr) (s t : State), exec i s = .next t → i ≠ .ser → i ≠ .enc → i ≠ .dec →
    (∀ a, t.inBuf.read a = s.inBuf.read a) ∧ (∀ a, t.outBuf.read a = s.outBuf.read a) ∧
    ((∃ x y z r, i = .round x y z r) ∨ (∃ a b c d, i = .qround a b c d) ∨ i = .dround →
      t = { s with w := t.w, err := t.err }) ∧
    (i = .init → t = { s with w := t.w, wmask := t.wmask, err := t.err }) ∧
    (i = .block → t = { s with w := t.w, wmask := t.wmask, snap := t.snap, err := t.err }) ∧
    (i = .wipe →
      t = { s with w := t.w, wmask := t.wmask, snap := t.snap, ks := t.ks, err := t.err }) ∧
    (i = .clrkey → t = { s with key := t.key, klen := t.klen, err := t.err })

/-- R42: SER, ENC and DEC change only what the table lists for each, no byte of IN, and no byte of OUT
outside the addresses they store to: `0 .. 63` for SER, the addresses of the chunks for ENC and
DEC. -/
def Obligations.StoringCommandsFrame : Prop :=
  ∀ (i : Instr) (s t : State), exec i s = .next t → i = .ser ∨ i = .enc ∨ i = .dec →
    (∀ a, t.inBuf.read a = s.inBuf.read a) ∧
    (i = .ser →
      t = { s with outBuf := t.outBuf, err := t.err } ∧
      ∀ a : Addr, (∀ j : Fin 64, BitVec.ofNat 64 j.val ≠ a) →
        t.outBuf.read a.toNat = s.outBuf.read a.toNat) ∧
    (i = .enc ∨ i = .dec →
      t = { s with
            w := t.w, wmask := t.wmask, snap := t.snap, ks := t.ks, seq := t.seq,
            outBuf := t.outBuf, err := t.err } ∧
      ∀ a : Addr,
        (∀ k j, k < chunkCount s.ilen.toNat → j < chunkLen s.ilen.toNat k → chunkAddr k j ≠ a) →
        t.outBuf.read a.toNat = s.outBuf.read a.toNat)

/-- R25 to R31, R36: no word written to CMD changes NONCE, NLEN, ICTR, ILEN, OLEN or a byte of IN, and
none but CLRKEY changes KEY or KLEN. -/
def Obligations.CommandsKeepTheHostsOperands : Prop :=
  ∀ (c : Word) (s t : State), issue c s = .next t →
    t.nonce = s.nonce ∧ t.nlen = s.nlen ∧ t.ictr = s.ictr ∧ t.ilen = s.ilen ∧ t.olen = s.olen ∧
    (∀ a, t.inBuf.read a = s.inBuf.read a) ∧
    (decode c ≠ .command .clrkey → t.key = s.key ∧ t.klen = s.klen)

/-- R22: bit `i` of WMASK is set by a host write of `Wi`, all bits by INIT and BLOCK; WIPE, a
successful ENC or DEC, and reset clear all of them; no other command and no other access of the host
changes WMASK. -/
def Obligations.WrittenMaskRule : Prop :=
  (∀ (s : State) (i : Fin 16) (v : Word), ∃ t,
    perform (.writeReg (0x80 + 4 * i.val) 4 v) s = .next t ∧
    ∀ k : Fin 16, t.wmask.getLsbD k.val = (decide (k = i) || s.wmask.getLsbD k.val)) ∧
  (∀ (i : Instr) (s t : State), exec i s = .next t →
    t.wmask =
      if t.err ≠ .ok then s.wmask
      else if i = .init ∨ i = .block then 0xFFFF#16
      else if i = .wipe ∨ i = .enc ∨ i = .dec then 0#16
      else s.wmask) ∧
  (∀ s : State, s.engineReset.wmask = 0#16) ∧
  ∀ (m : HostMove) (s t : State), perform m s = .next t →
    (∀ c, m ≠ .commandThenReset c) → m ≠ .reset →
    (∀ o n v, m = .writeReg o n v → o ≠ 0 ∧ ¬(0x80 ≤ o ∧ o < 0xC0)) → t.wmask = s.wmask

/-- R69, second sentence: INIT, BLOCK, SER, ENC, DEC, WIPE and CLRKEY issued a second time at once end
in the same state as the first time. OUT is taken in its canonical form, which every step keeps. -/
def Obligations.RepeatedCommandChangesNothing : Prop :=
  ∀ (i : Instr) (s t : State),
    i ∈ [.init, .block, .ser, .enc, .dec, .wipe, .clrkey] → s.outBuf.wf = true →
    exec i s = .next t → exec i t = .next t

/-! ## Reset and the host's accesses -/

/-- R40, R230: reset gives every register the value of the table and touches neither IN nor OUT;
afterwards STATUS and every `Wi` read 0. The state `State.reset` has the same registers. -/
def Obligations.ResetValues : Prop :=
  (∀ (s : State) (rest : List HostMove), s.pending = .reset :: rest →
    ∃ t, step s = .next t ∧ t.RegistersReset ∧
      (∀ a, t.inBuf.read a = s.inBuf.read a) ∧ (∀ a, t.outBuf.read a = s.outBuf.read a) ∧
      t.readReg .status = 0 ∧ (∀ i, t.readReg (.w i) = 0)) ∧
  State.reset.RegistersReset

/-- R232: after reset, the commands that need W raise StateUninitialized, those that need a key raise
InvalidLength, and WIPE and CLRKEY never fail. -/
def Obligations.FirstCommandAfterReset : Prop :=
  ∀ s : State,
    (∀ i : Instr,
      (∃ x y z r, i = .round x y z r) ∨ (∃ a b c d, i = .qround a b c d) ∨ i = .dround ∨ i = .ser →
      exec i s.engineReset = .next { s.engineReset with err := .stateUninitialized }) ∧
    (∀ i : Instr, i = .init ∨ i = .block ∨ i = .enc ∨ i = .dec →
      exec i s.engineReset = .next { s.engineReset with err := .invalidLength }) ∧
    exec .wipe s.engineReset = .next s.engineReset ∧
    exec .clrkey s.engineReset = .next s.engineReset

/-- R231: a reset while a command executes gives the registers their reset values, SEQ its IDLE, and
leaves all of IN, and every byte of OUT outside the command's range, unchanged: from ILEN on for ENC
and DEC, from 64 on for SER. Nothing is said of the bytes in the range. That all of OUT is unchanged
for any other word is the model's deduction from R231 and R42 (log entry 17, DEDUCED); that the
accesses still pending stay is its choice (log entry 9, DESIGN CHOICE), and so is the field that
holds the host's answer (log entry 2, DESIGN CHOICE). -/
def Obligations.ResetDuringACommand : Prop :=
  ∀ (s : State) (c : Word) (rest : List HostMove), s.pending = .commandThenReset c :: rest →
    ∃ t, step s = .next t ∧
      t = { State.reset with
            inBuf := s.inBuf, outBuf := t.outBuf, pending := rest, freeNext := t.freeNext } ∧
      (decode c = .command .enc ∨ decode c = .command .dec →
        ∀ a, s.ilen.toNat ≤ a → t.outBuf.read a = s.outBuf.read a) ∧
      (decode c = .command .ser → ∀ a, 64 ≤ a → t.outBuf.read a = s.outBuf.read a) ∧
      (decode c ≠ .command .enc → decode c ≠ .command .dec → decode c ≠ .command .ser →
        ∀ a, t.outBuf.read a = s.outBuf.read a)

/-- R45, the writes: what a host write of a word to each register does; STATUS and the reserved
offsets ignore it. -/
def Obligations.HostRegisterWrites : Prop :=
  ∀ (s : State) (v : Word),
    perform (.writeReg 0x08 4 v) s = .next { s with ictr := v } ∧
    perform (.writeReg 0x0C 4 v) s = .next { s with klen := v } ∧
    perform (.writeReg 0x10 4 v) s = .next { s with nlen := v } ∧
    perform (.writeReg 0x04 4 v) s = .next s ∧
    (∃ n, perform (.writeReg 0x18 4 v) s = .next { s with ilen := n } ∧
      slice n 31 0 = v.toNat ∧ slice n 63 32 = slice s.ilen 63 32) ∧
    (∃ n, perform (.writeReg 0x1C 4 v) s = .next { s with ilen := n } ∧
      slice n 63 32 = v.toNat ∧ slice n 31 0 = slice s.ilen 31 0) ∧
    (∃ n, perform (.writeReg 0x20 4 v) s = .next { s with olen := n } ∧
      slice n 31 0 = v.toNat ∧ slice n 63 32 = slice s.olen 63 32) ∧
    (∃ n, perform (.writeReg 0x24 4 v) s = .next { s with olen := n } ∧
      slice n 63 32 = v.toNat ∧ slice n 31 0 = slice s.olen 31 0) ∧
    (∀ j : Fin 8, ∃ k, perform (.writeReg (0x40 + 4 * j.val) 4 v) s = .next { s with key := k } ∧
      (∀ b : Fin 4, k[4 * j.val + b.val] = byteOf v b.val) ∧
      (∀ a : Fin 32, a.val / 4 ≠ j.val → k[a.val] = s.key[a.val]) ∧
      le32 k[4 * j.val] k[4 * j.val + 1] k[4 * j.val + 2] k[4 * j.val + 3] = v) ∧
    (∀ j : Fin 3, ∃ k, perform (.writeReg (0x60 + 4 * j.val) 4 v) s = .next { s with nonce := k } ∧
      (∀ b : Fin 4, k[4 * j.val + b.val] = byteOf v b.val) ∧
      (∀ a : Fin 12, a.val / 4 ≠ j.val → k[a.val] = s.nonce[a.val])) ∧
    (∀ i : Fin 16, ∃ m, perform (.writeReg (0x80 + 4 * i.val) 4 v) s
        = .next { s with w := s.w.set i.val v, wmask := m } ∧ m = s.wmask ||| 1#16 <<< i.val) ∧
    ∀ offset, offset % 4 = 0 →
      offset = 0x14 ∨ (0x28 ≤ offset ∧ offset ≤ 0x3C) ∨ (0x6C ≤ offset ∧ offset ≤ 0x7C) ∨
        (0xC0 ≤ offset ∧ offset ≤ 0xFC) →
      perform (.writeReg offset 4 v) s = .next s

/-- R45, the reads: what a host read of each register returns, with no side effect on the engine. -/
def Obligations.HostRegisterReads : Prop :=
  ∀ s : State,
    perform (.readReg 0x00 4) s = .next { s with reply := .word 0 } ∧
    perform (.readReg 0x04 4) s = .next { s with reply := .word s.status } ∧
    perform (.readReg 0x08 4) s = .next { s with reply := .word s.ictr } ∧
    perform (.readReg 0x0C 4) s = .next { s with reply := .word s.klen } ∧
    perform (.readReg 0x10 4) s = .next { s with reply := .word s.nlen } ∧
    (∃ v, perform (.readReg 0x18 4) s = .next { s with reply := .word v } ∧
      v.toNat = slice s.ilen 31 0) ∧
    (∃ v, perform (.readReg 0x1C 4) s = .next { s with reply := .word v } ∧
      v.toNat = slice s.ilen 63 32) ∧
    (∃ v, perform (.readReg 0x20 4) s = .next { s with reply := .word v } ∧
      v.toNat = slice s.olen 31 0) ∧
    (∃ v, perform (.readReg 0x24 4) s = .next { s with reply := .word v } ∧
      v.toNat = slice s.olen 63 32) ∧
    (∀ j : Fin 8, perform (.readReg (0x40 + 4 * j.val) 4) s = .next { s with reply := .word 0 }) ∧
    (∀ j : Fin 3, perform (.readReg (0x60 + 4 * j.val) 4) s
      = .next { s with reply := .word (le32 s.nonce[4 * j.val] s.nonce[4 * j.val + 1]
          s.nonce[4 * j.val + 2] s.nonce[4 * j.val + 3]) }) ∧
    (∀ i : Fin 16, perform (.readReg (0x80 + 4 * i.val) 4) s
      = .next { s with reply := .word s.w[i.val] })

/-- R45, R25: a register the host may read and write reads back the word written; KEYWj, CMD and
STATUS do not take it. -/
def Obligations.RegisterReadBack : Prop :=
  ∀ (s : State) (r : RegName) (v : Word),
    (s.writeReg r v).readReg r =
      match r with
      | .cmd => 0
      | .status => s.status
      | .keyw _ => 0
      | _ => v

/-- R33: the fields of STATUS, and a host write to it is ignored. -/
def Obligations.StatusLayout : Prop :=
  ∀ s : State,
    slice s.status 3 0 = s.err.code.toNat ∧
    slice s.status 4 4 = (if s.wmask = 0xFFFF#16 then 1 else 0) ∧
    slice s.status 15 5 = 0 ∧
    slice s.status 31 16 = s.wmask.toNat ∧
    (∀ v, perform (.writeReg 0x04 4 v) s = .next s) ∧
    State.reset.status = 0x00000000#32

/-- R39: a reserved offset reads 0 and ignores writes. -/
def Obligations.ReservedOffsetsReadZero : Prop :=
  ∀ (s : State) (offset : Nat), offset % 4 = 0 →
    offset = 0x14 ∨ (0x28 ≤ offset ∧ offset ≤ 0x3C) ∨ (0x6C ≤ offset ∧ offset ≤ 0x7C) ∨
      (0xC0 ≤ offset ∧ offset ≤ 0xFC) →
    perform (.readReg offset 4) s = .next { s with reply := .word 0 } ∧
    ∀ v, perform (.writeReg offset 4 v) s = .next s

/-- R36, R37, R69: the host reads and writes every byte of IN and OUT; a write changes that byte only,
a read changes nothing, and the two spaces do not alias. -/
def Obligations.HostBufferAccess : Prop :=
  ∀ (s : State) (a : Addr) (b : Byte),
    (∃ m, perform (.writeIn a b) s = .next { s with inBuf := m } ∧
      ∀ x, m.read x = if x = a.toNat then b else s.inBuf.read x) ∧
    (∃ m, perform (.writeOut a b) s = .next { s with outBuf := m } ∧
      ∀ x, m.read x = if x = a.toNat then b else s.outBuf.read x) ∧
    perform (.readIn a) s = .next { s with reply := .byte (s.inBuf.read a.toNat) } ∧
    perform (.readOut a) s = .next { s with reply := .byte (s.outBuf.read a.toNat) }

/-- R25, R43, R214, R220: KEY, S and KS cannot be read back. Two engines that agree on everything else
stay in agreement, answers to the host included, under every access that issues no command. Under a
command abandoned by a reset they stay in agreement on all but the bytes of OUT in the command's
range, of which nothing is said (R231, U1). -/
def Obligations.SecretsDoNotReachTheHost : Prop :=
  (∀ (m : HostMove) (s t u : State), s.PublicEq t →
    (∀ n v, m ≠ .writeReg 0 n v) → (∀ c, m ≠ .commandThenReset c) →
    perform m s = .next u → ∃ v, perform m t = .next v ∧ u.PublicEq v) ∧
  ∀ (c : Word) (s t u : State), s.PublicEq t → perform (.commandThenReset c) s = .next u →
    ∃ v, perform (.commandThenReset c) t = .next v ∧
      State.PublicEq { u with outBuf := v.outBuf } v ∧
      ∀ a, s.abandonedRange c ≤ a → u.outBuf.read a = v.outBuf.read a

/-- R100: LDKEY and LDNONCE load their first 32 and 12 bytes, absent ones as 0, and declare the number
of bytes given; nothing else changes. -/
def Obligations.LoadDirectives : Prop :=
  ∀ (s : State) (bytes : List Byte), bytes.length < 2 ^ 32 →
    (∃ k, performAll (ldKey bytes) s
        = .next { s with key := k, klen := BitVec.ofNat 32 bytes.length } ∧
      ∀ a : Fin 32, k[a.val] = bytes.getD a.val 0) ∧
    (∃ k, performAll (ldNonce bytes) s
        = .next { s with nonce := k, nlen := BitVec.ofNat 32 bytes.length } ∧
      ∀ a : Fin 12, k[a.val] = bytes.getD a.val 0) ∧
    (∀ n : BitVec 64, performAll (setIlen n) s = .next { s with ilen := n } ∧
      performAll (setOlen n) s = .next { s with olen := n })

/-- R215: engines share nothing. A step of one leaves every other as it was, and depends on that one
alone; all start in the same reset state, in which the model's own fields are equal too (log entry 18,
DESIGN CHOICE). -/
def Obligations.EnginesShareNothing : Prop :=
  (∀ (p q : Platform) (k : Nat), p.stepAt k = .next q →
    (∀ j, j ≠ k → q.engines[j]? = p.engines[j]?) ∧
    ∀ s, p.engines[k]? = some s → ∃ t, step s = .next t ∧ q.engines[k]? = some t) ∧
  (∀ (n : Nat) (s : State), s ∈ (Platform.reset n).engines → s = State.reset) ∧
  (Platform.reset).engines.length = 1

/-! ## The invariant -/

/-- The invariant of an engine between accesses holds after reset (R40). -/
def Obligations.ResetMeetsTheInvariant : Prop :=
  State.reset.Inv ∧ ∀ s : State, s.BuffersCanonical → s.engineReset.Inv

/-- R23, R24, R35, R45: every step keeps the invariant: S and KS zero, SEQ idle and in range, a word
of W whose mask bit is clear zero, both buffers canonical. -/
def Obligations.StepKeepsTheInvariant : Prop :=
  ∀ s t : State, s.Inv → step s = .next t → t.Inv
end

