-- ==== Sys2Proof/Laws/Memory.lean ====
section
/-! SUPPORT. The laws of a buffer: a read after a write, other addresses, the canonical form. -/

namespace Sys2Proof.Machine

theorem Memory.read_erase_same (m : Memory) (a : Nat) :
    Memory.read (m.erase a) a = Config.unlistedByte := by
  induction m with
  | nil => rfl
  | cons c m ih =>
    obtain ⟨k, b⟩ := c
    by_cases h : k = a
    · simpa [Memory.erase, h] using ih
    · simpa [Memory.erase, Memory.read, h] using ih

theorem Memory.read_erase_ne (m : Memory) {a x : Nat} (hx : x ≠ a) :
    Memory.read (m.erase a) x = m.read x := by
  induction m with
  | nil => rfl
  | cons c m ih =>
    obtain ⟨k, b⟩ := c
    by_cases h : k = a
    · have hk : k ≠ x := fun e => hx (e.symm.trans h)
      simpa [Memory.erase, Memory.read, h, hk, h ▸ hk] using ih
    · simp only [Memory.erase, List.filter_cons, bne_iff_ne, ne_eq, h, not_false_eq_true, if_true,
        Memory.read]
      split
      · rfl
      · exact ih

theorem Memory.read_insert_ne (m : Memory) {a x : Nat} (v : Byte) (hx : x ≠ a) :
    Memory.read (m.insert a v) x = m.read x := by
  induction m with
  | nil => simp [Memory.insert, Memory.read, hx.symm]
  | cons c m ih =>
    obtain ⟨k, b⟩ := c
    by_cases h : a < k
    · simp [Memory.insert, Memory.read, h, hx.symm]
    · simp only [Memory.insert, h, if_false, Memory.read, ih]

theorem Memory.read_insert_same (m : Memory) (a : Nat) (v : Byte)
    (hm : ∀ c ∈ m, c.1 ≠ a) : Memory.read (m.insert a v) a = v := by
  induction m with
  | nil => simp [Memory.insert, Memory.read]
  | cons c m ih =>
    obtain ⟨k, b⟩ := c
    by_cases h : a < k
    · simp [Memory.insert, Memory.read, h]
    · have hk : k ≠ a := hm (k, b) (List.mem_cons_self ..)
      simp only [Memory.insert, h, if_false, Memory.read, hk]
      exact ih fun c hc => hm c (List.mem_cons_of_mem _ hc)

theorem Memory.ne_of_mem_erase {m : Memory} {a : Nat} {c : Host.Cell} (hc : c ∈ m.erase a) :
    c.1 ≠ a := by
  simpa using (List.mem_filter.mp hc).2

/-- A read after a write to the same address gives the value written. -/
@[simp] theorem Memory.read_write_same (m : Memory) (a : Nat) (v : Byte) :
    (m.write a v).read a = v := by
  unfold Memory.write
  split
  · rename_i h
    rw [Memory.read_erase_same, h]
  · exact Memory.read_insert_same _ a v fun c hc => Memory.ne_of_mem_erase hc

/-- A write leaves every other address alone. -/
theorem Memory.read_write_ne (m : Memory) {a x : Nat} (v : Byte) (hx : x ≠ a) :
    (m.write a v).read x = m.read x := by
  unfold Memory.write
  split
  · exact Memory.read_erase_ne m hx
  · rw [Memory.read_insert_ne _ v hx, Memory.read_erase_ne m hx]

/-- One lemma for every address. -/
theorem Memory.read_write (m : Memory) (a x : Nat) (v : Byte) :
    (m.write a v).read x = if x = a then v else m.read x := by
  split
  · subst x; simp
  · exact Memory.read_write_ne m v ‹_›

/-- The canonical form as a proposition. -/
theorem Memory.wf_iff (m : Memory) :
    m.wf = true ↔ m.Pairwise (fun c d => c.1 < d.1) ∧
      ∀ c ∈ m, c.2 ≠ Config.unlistedByte ∧ c.1 < 2 ^ 64 := by
  simp [Memory.wf]

theorem Memory.wf_nil : Memory.wf [] = true := rfl

theorem Memory.erase_wf {m : Memory} (hm : m.wf = true) (a : Nat) : Memory.wf (m.erase a) = true := by
  rw [Memory.wf_iff] at hm ⊢
  exact ⟨hm.1.filter _, fun c hc => hm.2 c (List.mem_filter.mp hc).1⟩

theorem Memory.mem_insert {m : Memory} {a : Nat} {v : Byte} {c : Host.Cell}
    (hc : c ∈ m.insert a v) : c = (a, v) ∨ c ∈ m := by
  induction m with
  | nil => simpa [Memory.insert] using hc
  | cons d m ih =>
    obtain ⟨k, b⟩ := d
    by_cases h : a < k
    · simpa [Memory.insert, h] using hc
    · simp only [Memory.insert, h, if_false, List.mem_cons] at hc
      rcases hc with rfl | hc
      · exact .inr (List.mem_cons_self ..)
      · exact (ih hc).imp id (List.mem_cons_of_mem _)

theorem Memory.insert_sorted {m : Memory} {a : Nat} (v : Byte)
    (hs : m.Pairwise fun c d => c.1 < d.1) (hm : ∀ c ∈ m, c.1 ≠ a) :
    (m.insert a v).Pairwise fun c d => c.1 < d.1 := by
  induction m with
  | nil => simp [Memory.insert]
  | cons d m ih =>
    obtain ⟨k, b⟩ := d
    obtain ⟨hk, hs'⟩ := List.pairwise_cons.mp hs
    by_cases h : a < k
    · simp only [Memory.insert, h, if_true]
      refine List.pairwise_cons.mpr ⟨fun c hc => ?_, hs⟩
      rcases List.mem_cons.mp hc with rfl | hc
      · exact h
      · exact Nat.lt_trans h (hk c hc)
    · simp only [Memory.insert, h, if_false]
      have hne : k ≠ a := hm (k, b) (List.mem_cons_self ..)
      refine List.pairwise_cons.mpr ⟨fun c hc => ?_, ih hs' fun c hc => hm c (List.mem_cons_of_mem _ hc)⟩
      rcases Memory.mem_insert hc with rfl | hc
      · show k < a
        omega
      · exact hk c hc

/-- Every write at a `u64` address keeps the canonical form. -/
theorem Memory.write_wf {m : Memory} (hm : m.wf = true) {a : Nat} (ha : a < 2 ^ 64) (v : Byte) :
    (m.write a v).wf = true := by
  unfold Memory.write
  split
  · exact Memory.erase_wf hm a
  · rename_i hv
    have he := (Memory.wf_iff _).mp (Memory.erase_wf hm a)
    refine (Memory.wf_iff _).mpr
      ⟨Memory.insert_sorted v he.1 fun c hc => Memory.ne_of_mem_erase hc, fun c hc => ?_⟩
    rcases Memory.mem_insert hc with rfl | hc
    · exact ⟨hv, ha⟩
    · exact he.2 c hc

theorem Memory.read_of_lt_head {m : Memory} {x : Nat} (hm : ∀ c ∈ m, x < c.1) :
    m.read x = Config.unlistedByte := by
  induction m with
  | nil => rfl
  | cons c m ih =>
    obtain ⟨k, b⟩ := c
    have : x < k := hm (k, b) (List.mem_cons_self ..)
    simp only [Memory.read, Nat.ne_of_gt this, if_false]
    exact ih fun c hc => hm c (List.mem_cons_of_mem _ hc)

/-- Canonical memories that read alike are equal data. -/
theorem Memory.ext_of_wf {m n : Memory} (hm : m.wf = true) (hn : n.wf = true)
    (h : ∀ x, m.read x = n.read x) : m = n := by
  rw [Memory.wf_iff] at hm hn
  induction m generalizing n with
  | nil =>
    cases n with
    | nil => rfl
    | cons d n =>
      obtain ⟨k, b⟩ := d
      have := h k
      simp only [Memory.read, if_true] at this
      exact absurd this.symm (hn.2 (k, b) (List.mem_cons_self ..)).1
  | cons c m ih =>
    obtain ⟨k, b⟩ := c
    obtain ⟨hkm, hsm⟩ := List.pairwise_cons.mp hm.1
    have hb : b ≠ Config.unlistedByte := (hm.2 (k, b) (List.mem_cons_self ..)).1
    cases n with
    | nil =>
      have := h k
      simp only [Memory.read, if_true] at this
      exact absurd this hb
    | cons d n =>
      obtain ⟨l, e⟩ := d
      obtain ⟨hln, hsn⟩ := List.pairwise_cons.mp hn.1
      have he : e ≠ Config.unlistedByte := (hn.2 (l, e) (List.mem_cons_self ..)).1
      have hkl : k = l := by
        rcases Nat.lt_trichotomy k l with hlt | heq | hgt
        · have := h k
          rw [Memory.read_of_lt_head (m := (l, e) :: n)] at this
          · simp only [Memory.read, if_true] at this
            exact absurd this hb
          · intro c hc
            rcases List.mem_cons.mp hc with rfl | hc
            · exact hlt
            · exact Nat.lt_trans hlt (hln c hc)
        · exact heq
        · have := h l
          rw [Memory.read_of_lt_head (m := (k, b) :: m)] at this
          · simp only [Memory.read, if_true] at this
            exact absurd this.symm he
          · intro c hc
            rcases List.mem_cons.mp hc with rfl | hc
            · exact hgt
            · exact Nat.lt_trans hgt (hkm c hc)
      subst hkl
      have hbe : b = e := by
        have := h k
        simpa only [Memory.read, if_true] using this
      subst hbe
      have : m = n := by
        refine ih ⟨hsm, fun c hc => hm.2 c (List.mem_cons_of_mem _ hc)⟩
          ⟨hsn, fun c hc => hn.2 c (List.mem_cons_of_mem _ hc)⟩ fun x => ?_
        by_cases hx : k = x
        · subst hx
          rw [Memory.read_of_lt_head hkm, Memory.read_of_lt_head hln]
        · have := h x
          simpa only [Memory.read, hx, if_false] using this
      rw [this]

end Sys2Proof.Machine
end

