-- ==== Sys2Proof/Laws/State.lean ====
section
/-! SUPPORT. One lemma per field of `State` and shared update, so that no later proof unfolds a record
update. -/

namespace Sys2Proof.Machine

/-! Raising an error writes ERR and nothing else (R16, R211). -/

@[simp] theorem State.w_raise (s : State) (e : ErrCode) : (s.raise e).w = s.w := rfl
@[simp] theorem State.wmask_raise (s : State) (e : ErrCode) : (s.raise e).wmask = s.wmask := rfl
@[simp] theorem State.snap_raise (s : State) (e : ErrCode) : (s.raise e).snap = s.snap := rfl
@[simp] theorem State.ks_raise (s : State) (e : ErrCode) : (s.raise e).ks = s.ks := rfl
@[simp] theorem State.key_raise (s : State) (e : ErrCode) : (s.raise e).key = s.key := rfl
@[simp] theorem State.klen_raise (s : State) (e : ErrCode) : (s.raise e).klen = s.klen := rfl
@[simp] theorem State.nonce_raise (s : State) (e : ErrCode) : (s.raise e).nonce = s.nonce := rfl
@[simp] theorem State.nlen_raise (s : State) (e : ErrCode) : (s.raise e).nlen = s.nlen := rfl
@[simp] theorem State.ictr_raise (s : State) (e : ErrCode) : (s.raise e).ictr = s.ictr := rfl
@[simp] theorem State.ilen_raise (s : State) (e : ErrCode) : (s.raise e).ilen = s.ilen := rfl
@[simp] theorem State.olen_raise (s : State) (e : ErrCode) : (s.raise e).olen = s.olen := rfl
@[simp] theorem State.err_raise (s : State) (e : ErrCode) : (s.raise e).err = e := rfl
@[simp] theorem State.seq_raise (s : State) (e : ErrCode) : (s.raise e).seq = s.seq := rfl
@[simp] theorem State.inBuf_raise (s : State) (e : ErrCode) : (s.raise e).inBuf = s.inBuf := rfl
@[simp] theorem State.outBuf_raise (s : State) (e : ErrCode) : (s.raise e).outBuf = s.outBuf := rfl
@[simp] theorem State.pending_raise (s : State) (e : ErrCode) :
    (s.raise e).pending = s.pending := rfl
@[simp] theorem State.reply_raise (s : State) (e : ErrCode) : (s.raise e).reply = s.reply := rfl
@[simp] theorem State.freeNext_raise (s : State) (e : ErrCode) :
    (s.raise e).freeNext = s.freeNext := rfl

/-! Completing writes ERR and nothing else (R16). -/

@[simp] theorem State.w_complete (s : State) : (s.complete).w = s.w := rfl
@[simp] theorem State.wmask_complete (s : State) : (s.complete).wmask = s.wmask := rfl
@[simp] theorem State.snap_complete (s : State) : (s.complete).snap = s.snap := rfl
@[simp] theorem State.ks_complete (s : State) : (s.complete).ks = s.ks := rfl
@[simp] theorem State.key_complete (s : State) : (s.complete).key = s.key := rfl
@[simp] theorem State.klen_complete (s : State) : (s.complete).klen = s.klen := rfl
@[simp] theorem State.nonce_complete (s : State) : (s.complete).nonce = s.nonce := rfl
@[simp] theorem State.nlen_complete (s : State) : (s.complete).nlen = s.nlen := rfl
@[simp] theorem State.ictr_complete (s : State) : (s.complete).ictr = s.ictr := rfl
@[simp] theorem State.ilen_complete (s : State) : (s.complete).ilen = s.ilen := rfl
@[simp] theorem State.olen_complete (s : State) : (s.complete).olen = s.olen := rfl
@[simp] theorem State.err_complete (s : State) : (s.complete).err = .ok := rfl
@[simp] theorem State.seq_complete (s : State) : (s.complete).seq = s.seq := rfl
@[simp] theorem State.inBuf_complete (s : State) : (s.complete).inBuf = s.inBuf := rfl
@[simp] theorem State.outBuf_complete (s : State) : (s.complete).outBuf = s.outBuf := rfl
@[simp] theorem State.pending_complete (s : State) : (s.complete).pending = s.pending := rfl
@[simp] theorem State.reply_complete (s : State) : (s.complete).reply = s.reply := rfl
@[simp] theorem State.freeNext_complete (s : State) : (s.complete).freeNext = s.freeNext := rfl

/-! A byte store writes OUT and nothing else (R15). -/

@[simp] theorem State.w_memWrite (s : State) (a : Addr) (v : Byte) : (s.memWrite a v).w = s.w := rfl
@[simp] theorem State.wmask_memWrite (s : State) (a : Addr) (v : Byte) :
    (s.memWrite a v).wmask = s.wmask := rfl
@[simp] theorem State.snap_memWrite (s : State) (a : Addr) (v : Byte) :
    (s.memWrite a v).snap = s.snap := rfl
@[simp] theorem State.ks_memWrite (s : State) (a : Addr) (v : Byte) :
    (s.memWrite a v).ks = s.ks := rfl
@[simp] theorem State.key_memWrite (s : State) (a : Addr) (v : Byte) :
    (s.memWrite a v).key = s.key := rfl
@[simp] theorem State.klen_memWrite (s : State) (a : Addr) (v : Byte) :
    (s.memWrite a v).klen = s.klen := rfl
@[simp] theorem State.nonce_memWrite (s : State) (a : Addr) (v : Byte) :
    (s.memWrite a v).nonce = s.nonce := rfl
@[simp] theorem State.nlen_memWrite (s : State) (a : Addr) (v : Byte) :
    (s.memWrite a v).nlen = s.nlen := rfl
@[simp] theorem State.ictr_memWrite (s : State) (a : Addr) (v : Byte) :
    (s.memWrite a v).ictr = s.ictr := rfl
@[simp] theorem State.ilen_memWrite (s : State) (a : Addr) (v : Byte) :
    (s.memWrite a v).ilen = s.ilen := rfl
@[simp] theorem State.olen_memWrite (s : State) (a : Addr) (v : Byte) :
    (s.memWrite a v).olen = s.olen := rfl
@[simp] theorem State.err_memWrite (s : State) (a : Addr) (v : Byte) :
    (s.memWrite a v).err = s.err := rfl
@[simp] theorem State.seq_memWrite (s : State) (a : Addr) (v : Byte) :
    (s.memWrite a v).seq = s.seq := rfl
@[simp] theorem State.inBuf_memWrite (s : State) (a : Addr) (v : Byte) :
    (s.memWrite a v).inBuf = s.inBuf := rfl
@[simp] theorem State.outBuf_memWrite (s : State) (a : Addr) (v : Byte) :
    (s.memWrite a v).outBuf = s.outBuf.write a.toNat v := rfl
@[simp] theorem State.pending_memWrite (s : State) (a : Addr) (v : Byte) :
    (s.memWrite a v).pending = s.pending := rfl
@[simp] theorem State.reply_memWrite (s : State) (a : Addr) (v : Byte) :
    (s.memWrite a v).reply = s.reply := rfl
@[simp] theorem State.freeNext_memWrite (s : State) (a : Addr) (v : Byte) :
    (s.memWrite a v).freeNext = s.freeNext := rfl

/-! The wipe writes W, WMASK, S and KS (R190). -/

@[simp] theorem State.w_wipeScratch (s : State) : (s.wipeScratch).w = Vector.replicate 16 0 := rfl
@[simp] theorem State.wmask_wipeScratch (s : State) : (s.wipeScratch).wmask = 0 := rfl
@[simp] theorem State.snap_wipeScratch (s : State) :
    (s.wipeScratch).snap = Vector.replicate 16 0 := rfl
@[simp] theorem State.ks_wipeScratch (s : State) : (s.wipeScratch).ks = Vector.replicate 64 0 := rfl
@[simp] theorem State.key_wipeScratch (s : State) : (s.wipeScratch).key = s.key := rfl
@[simp] theorem State.klen_wipeScratch (s : State) : (s.wipeScratch).klen = s.klen := rfl
@[simp] theorem State.nonce_wipeScratch (s : State) : (s.wipeScratch).nonce = s.nonce := rfl
@[simp] theorem State.nlen_wipeScratch (s : State) : (s.wipeScratch).nlen = s.nlen := rfl
@[simp] theorem State.ictr_wipeScratch (s : State) : (s.wipeScratch).ictr = s.ictr := rfl
@[simp] theorem State.ilen_wipeScratch (s : State) : (s.wipeScratch).ilen = s.ilen := rfl
@[simp] theorem State.olen_wipeScratch (s : State) : (s.wipeScratch).olen = s.olen := rfl
@[simp] theorem State.err_wipeScratch (s : State) : (s.wipeScratch).err = s.err := rfl
@[simp] theorem State.seq_wipeScratch (s : State) : (s.wipeScratch).seq = s.seq := rfl
@[simp] theorem State.inBuf_wipeScratch (s : State) : (s.wipeScratch).inBuf = s.inBuf := rfl
@[simp] theorem State.outBuf_wipeScratch (s : State) : (s.wipeScratch).outBuf = s.outBuf := rfl
@[simp] theorem State.pending_wipeScratch (s : State) : (s.wipeScratch).pending = s.pending := rfl
@[simp] theorem State.reply_wipeScratch (s : State) : (s.wipeScratch).reply = s.reply := rfl
@[simp] theorem State.freeNext_wipeScratch (s : State) :
    (s.wipeScratch).freeNext = s.freeNext := rfl

/-! Setting up the matrix writes W and WMASK (R140). -/

@[simp] theorem State.w_initMatrix (s : State) (c : Word) :
    (s.initMatrix c).w = initWords s.key s.nonce c := rfl
@[simp] theorem State.wmask_initMatrix (s : State) (c : Word) :
    (s.initMatrix c).wmask = wmaskFull := rfl
@[simp] theorem State.snap_initMatrix (s : State) (c : Word) : (s.initMatrix c).snap = s.snap := rfl
@[simp] theorem State.ks_initMatrix (s : State) (c : Word) : (s.initMatrix c).ks = s.ks := rfl
@[simp] theorem State.key_initMatrix (s : State) (c : Word) : (s.initMatrix c).key = s.key := rfl
@[simp] theorem State.klen_initMatrix (s : State) (c : Word) : (s.initMatrix c).klen = s.klen := rfl
@[simp] theorem State.nonce_initMatrix (s : State) (c : Word) :
    (s.initMatrix c).nonce = s.nonce := rfl
@[simp] theorem State.nlen_initMatrix (s : State) (c : Word) : (s.initMatrix c).nlen = s.nlen := rfl
@[simp] theorem State.ictr_initMatrix (s : State) (c : Word) : (s.initMatrix c).ictr = s.ictr := rfl
@[simp] theorem State.ilen_initMatrix (s : State) (c : Word) : (s.initMatrix c).ilen = s.ilen := rfl
@[simp] theorem State.olen_initMatrix (s : State) (c : Word) : (s.initMatrix c).olen = s.olen := rfl
@[simp] theorem State.err_initMatrix (s : State) (c : Word) : (s.initMatrix c).err = s.err := rfl
@[simp] theorem State.seq_initMatrix (s : State) (c : Word) : (s.initMatrix c).seq = s.seq := rfl
@[simp] theorem State.inBuf_initMatrix (s : State) (c : Word) :
    (s.initMatrix c).inBuf = s.inBuf := rfl
@[simp] theorem State.outBuf_initMatrix (s : State) (c : Word) :
    (s.initMatrix c).outBuf = s.outBuf := rfl
@[simp] theorem State.pending_initMatrix (s : State) (c : Word) :
    (s.initMatrix c).pending = s.pending := rfl
@[simp] theorem State.reply_initMatrix (s : State) (c : Word) :
    (s.initMatrix c).reply = s.reply := rfl
@[simp] theorem State.freeNext_initMatrix (s : State) (c : Word) :
    (s.initMatrix c).freeNext = s.freeNext := rfl

/-! The body of BLOCK writes W, WMASK and S (R145). -/

@[simp] theorem State.w_generate (s : State) (c : Word) :
    (s.generate c).w = blockWords s.key s.nonce c := by
  unfold blockWords
  rfl
@[simp] theorem State.wmask_generate (s : State) (c : Word) :
    (s.generate c).wmask = wmaskFull := rfl
@[simp] theorem State.snap_generate (s : State) (c : Word) :
    (s.generate c).snap = Vector.replicate 16 0 := rfl
@[simp] theorem State.ks_generate (s : State) (c : Word) : (s.generate c).ks = s.ks := rfl
@[simp] theorem State.key_generate (s : State) (c : Word) : (s.generate c).key = s.key := rfl
@[simp] theorem State.klen_generate (s : State) (c : Word) : (s.generate c).klen = s.klen := rfl
@[simp] theorem State.nonce_generate (s : State) (c : Word) : (s.generate c).nonce = s.nonce := rfl
@[simp] theorem State.nlen_generate (s : State) (c : Word) : (s.generate c).nlen = s.nlen := rfl
@[simp] theorem State.ictr_generate (s : State) (c : Word) : (s.generate c).ictr = s.ictr := rfl
@[simp] theorem State.ilen_generate (s : State) (c : Word) : (s.generate c).ilen = s.ilen := rfl
@[simp] theorem State.olen_generate (s : State) (c : Word) : (s.generate c).olen = s.olen := rfl
@[simp] theorem State.err_generate (s : State) (c : Word) : (s.generate c).err = s.err := rfl
@[simp] theorem State.seq_generate (s : State) (c : Word) : (s.generate c).seq = s.seq := rfl
@[simp] theorem State.inBuf_generate (s : State) (c : Word) : (s.generate c).inBuf = s.inBuf := rfl
@[simp] theorem State.outBuf_generate (s : State) (c : Word) :
    (s.generate c).outBuf = s.outBuf := rfl
@[simp] theorem State.pending_generate (s : State) (c : Word) :
    (s.generate c).pending = s.pending := rfl
@[simp] theorem State.reply_generate (s : State) (c : Word) : (s.generate c).reply = s.reply := rfl
@[simp] theorem State.freeNext_generate (s : State) (c : Word) :
    (s.generate c).freeNext = s.freeNext := rfl

/-! Loading the keystream block writes KS (R160). -/

@[simp] theorem State.w_loadKeystream (s : State) (i : Nat) : (s.loadKeystream i).w = s.w := rfl
@[simp] theorem State.wmask_loadKeystream (s : State) (i : Nat) :
    (s.loadKeystream i).wmask = s.wmask := rfl
@[simp] theorem State.snap_loadKeystream (s : State) (i : Nat) :
    (s.loadKeystream i).snap = s.snap := rfl
@[simp] theorem State.ks_loadKeystream (s : State) (i : Nat) :
    (s.loadKeystream i).ks = keystreamBlock s.key s.nonce (s.counterWord i) := rfl
@[simp] theorem State.key_loadKeystream (s : State) (i : Nat) :
    (s.loadKeystream i).key = s.key := rfl
@[simp] theorem State.klen_loadKeystream (s : State) (i : Nat) :
    (s.loadKeystream i).klen = s.klen := rfl
@[simp] theorem State.nonce_loadKeystream (s : State) (i : Nat) :
    (s.loadKeystream i).nonce = s.nonce := rfl
@[simp] theorem State.nlen_loadKeystream (s : State) (i : Nat) :
    (s.loadKeystream i).nlen = s.nlen := rfl
@[simp] theorem State.ictr_loadKeystream (s : State) (i : Nat) :
    (s.loadKeystream i).ictr = s.ictr := rfl
@[simp] theorem State.ilen_loadKeystream (s : State) (i : Nat) :
    (s.loadKeystream i).ilen = s.ilen := rfl
@[simp] theorem State.olen_loadKeystream (s : State) (i : Nat) :
    (s.loadKeystream i).olen = s.olen := rfl
@[simp] theorem State.err_loadKeystream (s : State) (i : Nat) :
    (s.loadKeystream i).err = s.err := rfl
@[simp] theorem State.seq_loadKeystream (s : State) (i : Nat) :
    (s.loadKeystream i).seq = s.seq := rfl
@[simp] theorem State.inBuf_loadKeystream (s : State) (i : Nat) :
    (s.loadKeystream i).inBuf = s.inBuf := rfl
@[simp] theorem State.outBuf_loadKeystream (s : State) (i : Nat) :
    (s.loadKeystream i).outBuf = s.outBuf := rfl
@[simp] theorem State.pending_loadKeystream (s : State) (i : Nat) :
    (s.loadKeystream i).pending = s.pending := rfl
@[simp] theorem State.reply_loadKeystream (s : State) (i : Nat) :
    (s.loadKeystream i).reply = s.reply := rfl
@[simp] theorem State.freeNext_loadKeystream (s : State) (i : Nat) :
    (s.loadKeystream i).freeNext = s.freeNext := rfl

/-! Scrubbing writes KS (R171). -/

@[simp] theorem State.w_scrubKeystream (s : State) : (s.scrubKeystream).w = s.w := rfl
@[simp] theorem State.wmask_scrubKeystream (s : State) : (s.scrubKeystream).wmask = s.wmask := rfl
@[simp] theorem State.snap_scrubKeystream (s : State) : (s.scrubKeystream).snap = s.snap := rfl
@[simp] theorem State.ks_scrubKeystream (s : State) :
    (s.scrubKeystream).ks = Vector.replicate 64 0 := rfl
@[simp] theorem State.key_scrubKeystream (s : State) : (s.scrubKeystream).key = s.key := rfl
@[simp] theorem State.klen_scrubKeystream (s : State) : (s.scrubKeystream).klen = s.klen := rfl
@[simp] theorem State.nonce_scrubKeystream (s : State) : (s.scrubKeystream).nonce = s.nonce := rfl
@[simp] theorem State.nlen_scrubKeystream (s : State) : (s.scrubKeystream).nlen = s.nlen := rfl
@[simp] theorem State.ictr_scrubKeystream (s : State) : (s.scrubKeystream).ictr = s.ictr := rfl
@[simp] theorem State.ilen_scrubKeystream (s : State) : (s.scrubKeystream).ilen = s.ilen := rfl
@[simp] theorem State.olen_scrubKeystream (s : State) : (s.scrubKeystream).olen = s.olen := rfl
@[simp] theorem State.err_scrubKeystream (s : State) : (s.scrubKeystream).err = s.err := rfl
@[simp] theorem State.seq_scrubKeystream (s : State) : (s.scrubKeystream).seq = s.seq := rfl
@[simp] theorem State.inBuf_scrubKeystream (s : State) : (s.scrubKeystream).inBuf = s.inBuf := rfl
@[simp] theorem State.outBuf_scrubKeystream (s : State) :
    (s.scrubKeystream).outBuf = s.outBuf := rfl
@[simp] theorem State.pending_scrubKeystream (s : State) :
    (s.scrubKeystream).pending = s.pending := rfl
@[simp] theorem State.reply_scrubKeystream (s : State) : (s.scrubKeystream).reply = s.reply := rfl
@[simp] theorem State.freeNext_scrubKeystream (s : State) :
    (s.scrubKeystream).freeNext = s.freeNext := rfl

/-! The end of the sequencer writes SEQ (R166). -/

@[simp] theorem State.w_sequencerDone (s : State) (n : Nat) : (s.sequencerDone n).w = s.w := rfl
@[simp] theorem State.wmask_sequencerDone (s : State) (n : Nat) :
    (s.sequencerDone n).wmask = s.wmask := rfl
@[simp] theorem State.snap_sequencerDone (s : State) (n : Nat) :
    (s.sequencerDone n).snap = s.snap := rfl
@[simp] theorem State.ks_sequencerDone (s : State) (n : Nat) : (s.sequencerDone n).ks = s.ks := rfl
@[simp] theorem State.key_sequencerDone (s : State) (n : Nat) :
    (s.sequencerDone n).key = s.key := rfl
@[simp] theorem State.klen_sequencerDone (s : State) (n : Nat) :
    (s.sequencerDone n).klen = s.klen := rfl
@[simp] theorem State.nonce_sequencerDone (s : State) (n : Nat) :
    (s.sequencerDone n).nonce = s.nonce := rfl
@[simp] theorem State.nlen_sequencerDone (s : State) (n : Nat) :
    (s.sequencerDone n).nlen = s.nlen := rfl
@[simp] theorem State.ictr_sequencerDone (s : State) (n : Nat) :
    (s.sequencerDone n).ictr = s.ictr := rfl
@[simp] theorem State.ilen_sequencerDone (s : State) (n : Nat) :
    (s.sequencerDone n).ilen = s.ilen := rfl
@[simp] theorem State.olen_sequencerDone (s : State) (n : Nat) :
    (s.sequencerDone n).olen = s.olen := rfl
@[simp] theorem State.err_sequencerDone (s : State) (n : Nat) :
    (s.sequencerDone n).err = s.err := rfl
@[simp] theorem State.seq_sequencerDone (s : State) (n : Nat) :
    (s.sequencerDone n).seq = ⟨.idle, n, n⟩ := rfl
@[simp] theorem State.inBuf_sequencerDone (s : State) (n : Nat) :
    (s.sequencerDone n).inBuf = s.inBuf := rfl
@[simp] theorem State.outBuf_sequencerDone (s : State) (n : Nat) :
    (s.sequencerDone n).outBuf = s.outBuf := rfl
@[simp] theorem State.pending_sequencerDone (s : State) (n : Nat) :
    (s.sequencerDone n).pending = s.pending := rfl
@[simp] theorem State.reply_sequencerDone (s : State) (n : Nat) :
    (s.sequencerDone n).reply = s.reply := rfl
@[simp] theorem State.freeNext_sequencerDone (s : State) (n : Nat) :
    (s.sequencerDone n).freeNext = s.freeNext := rfl

/-! The start of the sequencer writes the phase (R166). -/

@[simp] theorem State.w_startSequencer (s : State) : (s.startSequencer).w = s.w := rfl
@[simp] theorem State.wmask_startSequencer (s : State) : (s.startSequencer).wmask = s.wmask := rfl
@[simp] theorem State.snap_startSequencer (s : State) : (s.startSequencer).snap = s.snap := rfl
@[simp] theorem State.ks_startSequencer (s : State) : (s.startSequencer).ks = s.ks := rfl
@[simp] theorem State.key_startSequencer (s : State) : (s.startSequencer).key = s.key := rfl
@[simp] theorem State.klen_startSequencer (s : State) : (s.startSequencer).klen = s.klen := rfl
@[simp] theorem State.nonce_startSequencer (s : State) : (s.startSequencer).nonce = s.nonce := rfl
@[simp] theorem State.nlen_startSequencer (s : State) : (s.startSequencer).nlen = s.nlen := rfl
@[simp] theorem State.ictr_startSequencer (s : State) : (s.startSequencer).ictr = s.ictr := rfl
@[simp] theorem State.ilen_startSequencer (s : State) : (s.startSequencer).ilen = s.ilen := rfl
@[simp] theorem State.olen_startSequencer (s : State) : (s.startSequencer).olen = s.olen := rfl
@[simp] theorem State.err_startSequencer (s : State) : (s.startSequencer).err = s.err := rfl
@[simp] theorem State.seq_startSequencer (s : State) :
    (s.startSequencer).seq = ⟨.check, s.seq.i, s.seq.n⟩ := rfl
@[simp] theorem State.inBuf_startSequencer (s : State) : (s.startSequencer).inBuf = s.inBuf := rfl
@[simp] theorem State.outBuf_startSequencer (s : State) :
    (s.startSequencer).outBuf = s.outBuf := rfl
@[simp] theorem State.pending_startSequencer (s : State) :
    (s.startSequencer).pending = s.pending := rfl
@[simp] theorem State.reply_startSequencer (s : State) : (s.startSequencer).reply = s.reply := rfl
@[simp] theorem State.freeNext_startSequencer (s : State) :
    (s.startSequencer).freeNext = s.freeNext := rfl

/-! Serving an access takes it off the host's list. -/

@[simp] theorem State.w_serving (s : State) (rest : List HostMove) : (s.serving rest).w = s.w := rfl
@[simp] theorem State.wmask_serving (s : State) (rest : List HostMove) :
    (s.serving rest).wmask = s.wmask := rfl
@[simp] theorem State.snap_serving (s : State) (rest : List HostMove) :
    (s.serving rest).snap = s.snap := rfl
@[simp] theorem State.ks_serving (s : State) (rest : List HostMove) :
    (s.serving rest).ks = s.ks := rfl
@[simp] theorem State.key_serving (s : State) (rest : List HostMove) :
    (s.serving rest).key = s.key := rfl
@[simp] theorem State.klen_serving (s : State) (rest : List HostMove) :
    (s.serving rest).klen = s.klen := rfl
@[simp] theorem State.nonce_serving (s : State) (rest : List HostMove) :
    (s.serving rest).nonce = s.nonce := rfl
@[simp] theorem State.nlen_serving (s : State) (rest : List HostMove) :
    (s.serving rest).nlen = s.nlen := rfl
@[simp] theorem State.ictr_serving (s : State) (rest : List HostMove) :
    (s.serving rest).ictr = s.ictr := rfl
@[simp] theorem State.ilen_serving (s : State) (rest : List HostMove) :
    (s.serving rest).ilen = s.ilen := rfl
@[simp] theorem State.olen_serving (s : State) (rest : List HostMove) :
    (s.serving rest).olen = s.olen := rfl
@[simp] theorem State.err_serving (s : State) (rest : List HostMove) :
    (s.serving rest).err = s.err := rfl
@[simp] theorem State.seq_serving (s : State) (rest : List HostMove) :
    (s.serving rest).seq = s.seq := rfl
@[simp] theorem State.inBuf_serving (s : State) (rest : List HostMove) :
    (s.serving rest).inBuf = s.inBuf := rfl
@[simp] theorem State.outBuf_serving (s : State) (rest : List HostMove) :
    (s.serving rest).outBuf = s.outBuf := rfl
@[simp] theorem State.pending_serving (s : State) (rest : List HostMove) :
    (s.serving rest).pending = rest := rfl
@[simp] theorem State.reply_serving (s : State) (rest : List HostMove) :
    (s.serving rest).reply = .nothing := rfl
@[simp] theorem State.freeNext_serving (s : State) (rest : List HostMove) :
    (s.serving rest).freeNext = s.freeNext := rfl

/-! Reset gives every register its value of R40 and leaves the buffers and the host's side. -/

@[simp] theorem State.w_engineReset (s : State) : (s.engineReset).w = State.reset.w := rfl
@[simp] theorem State.wmask_engineReset (s : State) :
    (s.engineReset).wmask = State.reset.wmask := rfl
@[simp] theorem State.snap_engineReset (s : State) : (s.engineReset).snap = State.reset.snap := rfl
@[simp] theorem State.ks_engineReset (s : State) : (s.engineReset).ks = State.reset.ks := rfl
@[simp] theorem State.key_engineReset (s : State) : (s.engineReset).key = State.reset.key := rfl
@[simp] theorem State.klen_engineReset (s : State) : (s.engineReset).klen = State.reset.klen := rfl
@[simp] theorem State.nonce_engineReset (s : State) :
    (s.engineReset).nonce = State.reset.nonce := rfl
@[simp] theorem State.nlen_engineReset (s : State) : (s.engineReset).nlen = State.reset.nlen := rfl
@[simp] theorem State.ictr_engineReset (s : State) : (s.engineReset).ictr = State.reset.ictr := rfl
@[simp] theorem State.ilen_engineReset (s : State) : (s.engineReset).ilen = State.reset.ilen := rfl
@[simp] theorem State.olen_engineReset (s : State) : (s.engineReset).olen = State.reset.olen := rfl
@[simp] theorem State.err_engineReset (s : State) : (s.engineReset).err = State.reset.err := rfl
@[simp] theorem State.seq_engineReset (s : State) : (s.engineReset).seq = State.reset.seq := rfl
@[simp] theorem State.inBuf_engineReset (s : State) : (s.engineReset).inBuf = s.inBuf := rfl
@[simp] theorem State.outBuf_engineReset (s : State) : (s.engineReset).outBuf = s.outBuf := rfl
@[simp] theorem State.pending_engineReset (s : State) : (s.engineReset).pending = s.pending := rfl
@[simp] theorem State.reply_engineReset (s : State) : (s.engineReset).reply = s.reply := rfl
@[simp] theorem State.freeNext_engineReset (s : State) :
    (s.engineReset).freeNext = s.freeNext := rfl

end Sys2Proof.Machine
end

