-- ==== Sys2Proof/Laws/Ops.lean ====
section
/-! SUPPORT. Per shared operation, one lemma that says all it can do: byte stores, the store of a
list, one chunk, a run of chunks, free bytes, the body of BLOCK, the checks of ENC and DEC. -/

namespace Sys2Proof.Machine

theorem toNat_addr {a : Nat} (h : a < 2 ^ 64) : (BitVec.ofNat 64 a).toNat = a := by
  simpa using Nat.mod_eq_of_lt h

/-! ### The store of a list -/

/-- The store of a list writes OUT and nothing else. -/
theorem State.memWriteList_eq (s : State) (a : Nat) (bs : List Byte) :
    s.memWriteList a bs = { s with outBuf := (s.memWriteList a bs).outBuf } := by
  induction bs generalizing s a with
  | nil => rfl
  | cons b bs ih => rw [State.memWriteList, ih]; rfl

/-- What the store of a list leaves at every address. -/
theorem State.memWriteList_read (s : State) (a : Nat) (bs : List Byte)
    (h : a + bs.length ≤ 2 ^ 64) (x : Nat) :
    (s.memWriteList a bs).outBuf.read x =
      if a ≤ x ∧ x < a + bs.length then bs.getD (x - a) 0 else s.outBuf.read x := by
  induction bs generalizing s a with
  | nil =>
    simp [State.memWriteList]
  | cons b bs ih =>
    simp only [List.length_cons] at h ⊢
    rw [State.memWriteList, ih _ _ (by omega), State.outBuf_memWrite, toNat_addr (by omega),
      Memory.read_write]
    by_cases hx : x = a
    · subst hx
      simp
    · by_cases hlo : a + 1 ≤ x ∧ x < a + 1 + bs.length
      · have h2 : a ≤ x ∧ x < a + (bs.length + 1) := by omega
        have h3 : x - a = (x - (a + 1)) + 1 := by omega
        rw [if_pos hlo, if_pos h2, h3, List.getD_cons_succ]
      · have h2 : ¬(a ≤ x ∧ x < a + (bs.length + 1)) := by omega
        rw [if_neg hlo, if_neg h2, if_neg hx]

theorem State.memWriteList_wf (s : State) (a : Nat) (bs : List Byte) (h : s.outBuf.wf = true) :
    (s.memWriteList a bs).outBuf.wf = true := by
  induction bs generalizing s a with
  | nil => exact h
  | cons b bs ih =>
    exact ih _ _ (Memory.write_wf h (BitVec.isLt _) _)

/-! ### One chunk -/

/-- Processing bytes of a chunk writes OUT and nothing else (R170). -/
theorem State.xorChunk_eq (s : State) (i len : Nat) :
    s.xorChunk i len = { s with outBuf := (s.xorChunk i len).outBuf } := by
  induction len with
  | zero => rfl
  | succ j ih => rw [State.xorChunk, ih]; rfl

/-- What processing `len` bytes of chunk `i` leaves at every address of OUT (R170). -/
theorem State.xorChunk_read (s : State) (i len : Nat) (h : 64 * i + len ≤ 2 ^ 64) (x : Nat) :
    (s.xorChunk i len).outBuf.read x =
      if 64 * i ≤ x ∧ x < 64 * i + len then
        xor8 (s.inBuf.read x) (byteAt s.ks (x - 64 * i))
      else s.outBuf.read x := by
  induction len with
  | zero =>
    have : ¬(64 * i ≤ x ∧ x < 64 * i + 0) := by omega
    rw [if_neg this]
    rfl
  | succ j ih =>
    have ha : (chunkAddr i j).toNat = 64 * i + j := toNat_addr (by omega)
    have hin : (s.xorChunk i j).inBuf = s.inBuf := by rw [State.xorChunk_eq]
    have hks : (s.xorChunk i j).ks = s.ks := by rw [State.xorChunk_eq]
    rw [State.xorChunk, State.outBuf_memWrite, ha, Memory.read_write, ih (by omega),
      State.memRead, hin, hks, ha]
    by_cases hx : x = 64 * i + j
    · have h2 : 64 * i ≤ x ∧ x < 64 * i + (j + 1) := by omega
      rw [if_pos hx, if_pos h2, hx, Nat.add_sub_cancel_left]
    · by_cases hlo : 64 * i ≤ x ∧ x < 64 * i + j
      · have h2 : 64 * i ≤ x ∧ x < 64 * i + (j + 1) := by omega
        rw [if_neg hx, if_pos hlo, if_pos h2]
      · have h2 : ¬(64 * i ≤ x ∧ x < 64 * i + (j + 1)) := by omega
        rw [if_neg hx, if_neg hlo, if_neg h2]

theorem State.xorChunk_wf (s : State) (i len : Nat) (h : s.outBuf.wf = true) :
    (s.xorChunk i len).outBuf.wf = true := by
  induction len with
  | zero => exact h
  | succ j ih =>
    rw [State.xorChunk, State.outBuf_memWrite]
    exact Memory.write_wf ih (BitVec.isLt _) _

theorem State.outBuf_processChunk (s : State) (i : Nat) :
    (s.processChunk i).outBuf =
      ((s.loadKeystream i).xorChunk i (chunkLen s.ilen.toNat i)).outBuf := by
  rw [State.processChunk, State.outBuf_scrubKeystream]

/-- One chunk writes OUT and leaves KS zero, and changes nothing else (R160). -/
theorem State.processChunk_eq (s : State) (i : Nat) :
    s.processChunk i =
      { s with outBuf := (s.processChunk i).outBuf, ks := Vector.replicate 64 0 } := by
  rw [State.outBuf_processChunk]
  generalize ho : ((s.loadKeystream i).xorChunk i (chunkLen s.ilen.toNat i)).outBuf = o
  rw [State.processChunk, State.xorChunk_eq, ho]
  rfl

/-- What chunk `i` leaves at every address of OUT. -/
theorem State.processChunk_read (s : State) (i : Nat) (h : 64 * i ≤ s.ilen.toNat) (x : Nat) :
    (s.processChunk i).outBuf.read x =
      if 64 * i ≤ x ∧ x < 64 * i + chunkLen s.ilen.toNat i then
        xor8 (s.inBuf.read x)
          (byteAt (keystreamBlock s.key s.nonce (s.counterWord i)) (x - 64 * i))
      else s.outBuf.read x := by
  have hb := s.ilen.isLt
  have hl : 64 * i + chunkLen s.ilen.toNat i ≤ 2 ^ 64 := by simp only [chunkLen]; omega
  rw [State.outBuf_processChunk, State.xorChunk_read _ _ _ hl, State.inBuf_loadKeystream,
    State.ks_loadKeystream, State.outBuf_loadKeystream]

theorem State.processChunk_wf (s : State) (i : Nat) (h : s.outBuf.wf = true) :
    (s.processChunk i).outBuf.wf = true := by
  rw [State.outBuf_processChunk]
  exact State.xorChunk_wf _ i _ h

/-! ### A run of chunks -/

/-- Chunks `0 .. n-1` write OUT and KS and nothing else. -/
theorem State.processChunks_eq (s : State) (n : Nat) :
    s.processChunks n =
      { s with
        outBuf := (s.processChunks n).outBuf
        ks := if n = 0 then s.ks else Vector.replicate 64 0 } := by
  induction n with
  | zero => rfl
  | succ i ih =>
    rw [State.processChunks]
    generalize s.processChunks i = t at ih
    rw [State.processChunk_eq]
    generalize (t.processChunk i).outBuf = o
    rw [ih]
    simp

/-- What the first `n` chunks leave at every address of OUT (R160, R162). -/
theorem State.processChunks_read (s : State) (n : Nat) (h : n ≤ chunkCount s.ilen.toNat) (x : Nat) :
    (s.processChunks n).outBuf.read x =
      if x < 64 * n ∧ x < s.ilen.toNat then
        xor8 (s.inBuf.read x)
          (byteAt (keystreamBlock s.key s.nonce (s.counterWord (x / 64))) (x % 64))
      else s.outBuf.read x := by
  induction n with
  | zero =>
    have : ¬(x < 64 * 0 ∧ x < s.ilen.toNat) := by omega
    rw [if_neg this]
    rfl
  | succ i ih =>
    have hn : 64 * i < s.ilen.toNat := by simp only [chunkCount] at h; omega
    have ih := ih (by omega)
    have hf := State.processChunks_eq s i
    rw [State.processChunks]
    generalize s.processChunks i = t at ih hf
    have hilen : t.ilen = s.ilen := by rw [hf]
    have hin : t.inBuf = s.inBuf := by rw [hf]
    have hkey : t.key = s.key := by rw [hf]
    have hnonce : t.nonce = s.nonce := by rw [hf]
    have hctr : t.counterWord i = s.counterWord i := by
      unfold State.counterWord; rw [hf]
    rw [State.processChunk_read _ _ (by rw [hilen]; omega), hilen, hin, hkey, hnonce, hctr, ih]
    by_cases hx : 64 * i ≤ x ∧ x < 64 * i + chunkLen s.ilen.toNat i
    · have hx' := hx
      simp only [chunkLen] at hx'
      have h2 : x < 64 * (i + 1) ∧ x < s.ilen.toNat := by omega
      have hdiv : x / 64 = i := by omega
      have hmod : x - 64 * i = x % 64 := by omega
      rw [if_pos hx, if_pos h2, hdiv, hmod]
    · have hx' := hx
      simp only [chunkLen] at hx'
      rw [if_neg hx]
      by_cases h1 : x < 64 * i ∧ x < s.ilen.toNat
      · have h2 : x < 64 * (i + 1) ∧ x < s.ilen.toNat := by omega
        rw [if_pos h1, if_pos h2]
      · have h2 : ¬(x < 64 * (i + 1) ∧ x < s.ilen.toNat) := by omega
        rw [if_neg h1, if_neg h2]

theorem State.processChunks_wf (s : State) (n : Nat) (h : s.outBuf.wf = true) :
    (s.processChunks n).outBuf.wf = true := by
  induction n with
  | zero => exact h
  | succ i ih => exact State.processChunk_wf _ i ih

/-! ### Checks and the two outcomes of ENC and DEC -/

/-- R173, R209: which check of ENC and DEC fails first. -/
theorem State.processCheck_eq_none (s : State) :
    s.processCheck = none ↔
      s.lengthsOk = true ∧ s.olen = s.ilen ∧
        counterOverflows s.ictr (chunkCount s.ilen.toNat) = false := by
  unfold State.processCheck
  cases s.lengthsOk <;> by_cases h : s.olen = s.ilen <;>
    cases counterOverflows s.ictr (chunkCount s.ilen.toNat) <;> simp [h]

/-- A failed check is one of the three errors of ENC and DEC. -/
theorem State.processCheck_mem (s : State) {e : ErrCode} (h : s.processCheck = some e) :
    e = .invalidLength ∨ e = .lengthMismatch ∨ e = .counterOverflow := by
  unfold State.processCheck at h
  split at h
  · exact .inl (by simpa using h.symm)
  · split at h
    · exact .inr (.inl (by simpa using h.symm))
    · split at h
      · exact .inr (.inr (by simpa using h.symm))
      · simp at h

/-- R211: a failed check raises its error. -/
theorem State.process_of_error (s : State) {e : ErrCode} (h : s.processCheck = some e) :
    s.process = s.raise e := by
  simp only [State.process, h]

/-- R160: a passed check processes every chunk, wipes and completes; the chunks' only trace is OUT. -/
theorem State.process_of_ok (s : State) (h : s.processCheck = none) :
    s.process =
      { s with
        w := Vector.replicate 16 0
        wmask := 0
        snap := Vector.replicate 16 0
        ks := Vector.replicate 64 0
        err := .ok
        seq := ⟨.idle, chunkCount s.ilen.toNat, chunkCount s.ilen.toNat⟩
        outBuf := (s.processChunks (chunkCount s.ilen.toNat)).outBuf } := by
  simp only [State.process, h]
  have hf := State.processChunks_eq s (chunkCount s.ilen.toNat)
  generalize s.processChunks (chunkCount s.ilen.toNat) = t at hf
  generalize t.outBuf = o at hf
  rw [hf]
  rfl

/-- R160, R162: OUT after a passed check, at every address. -/
theorem State.process_read (s : State) (h : s.processCheck = none) (x : Nat) :
    s.process.outBuf.read x =
      if x < s.ilen.toNat then
        xor8 (s.inBuf.read x)
          (byteAt (keystreamBlock s.key s.nonce (s.counterWord (x / 64))) (x % 64))
      else s.outBuf.read x := by
  rw [State.process_of_ok s h]
  simp only
  rw [State.processChunks_read s _ (Nat.le_refl _)]
  by_cases hx : x < s.ilen.toNat
  · have : x < 64 * chunkCount s.ilen.toNat ∧ x < s.ilen.toNat := by
      simp only [chunkCount]; omega
    rw [if_pos this, if_pos hx]
  · rw [if_neg hx, if_neg (fun hh => hx hh.2)]

/-- R165: after a passed check every used counter fits 32 bits. -/
theorem State.chunk_counter_lt (s : State) (h : s.processCheck = none) {i : Nat}
    (hi : i < chunkCount s.ilen.toNat) : chunkCounter s.ictr i < 2 ^ 32 := by
  have hc := ((State.processCheck_eq_none s).mp h).2.2
  simp only [counterOverflows, Bool.and_eq_false_iff, decide_eq_false_iff_not] at hc
  simp only [chunkCounter]
  omega

/-! ### The body of BLOCK and of phase GEN -/

/-- R145, R168: the lines of the body together. -/
theorem State.generate_eq (s : State) (ctr : Word) :
    s.generate ctr =
      { s with
        w := blockWords s.key s.nonce ctr
        wmask := wmaskFull
        snap := Vector.replicate 16 0 } := by
  unfold blockWords
  rfl

/-! ### Free bytes -/

/-- Filling with free values writes OUT and nothing else (R231). -/
theorem State.fillFree_eq (s : State) (base len : Nat) :
    s.fillFree base len = { s with outBuf := (s.fillFree base len).outBuf } := by
  induction len with
  | zero => rfl
  | succ j ih => rw [State.fillFree, ih]; rfl

/-- What filling with free values leaves at every address of OUT (R231). -/
theorem State.fillFree_read (s : State) (base len : Nat) (h : len ≤ 2 ^ 64) (x : Nat) :
    (s.fillFree base len).outBuf.read x =
      if x < len then Config.freeByte (base + x) else s.outBuf.read x := by
  induction len with
  | zero => simp [State.fillFree]
  | succ j ih =>
    rw [State.fillFree, State.outBuf_memWrite, toNat_addr (by omega), Memory.read_write,
      ih (by omega)]
    by_cases hx : x = j
    · have h2 : x < j + 1 := by omega
      rw [if_pos hx, if_pos h2, hx]
    · by_cases hlo : x < j
      · have h2 : x < j + 1 := by omega
        rw [if_neg hx, if_pos hlo, if_pos h2]
      · have h2 : ¬x < j + 1 := by omega
        rw [if_neg hx, if_neg hlo, if_neg h2]

theorem State.fillFree_wf (s : State) (base len : Nat) (h : s.outBuf.wf = true) :
    (s.fillFree base len).outBuf.wf = true := by
  induction len with
  | zero => exact h
  | succ j ih => exact Memory.write_wf ih (BitVec.isLt _) _

/-- R231: a command abandoned by reset is a reset with free bytes in the command's range. -/
theorem State.abandon_eq (s : State) (c : Word) :
    s.abandon c =
      { s.engineReset with
        outBuf := (s.fillFree s.freeNext (s.abandonedRange c)).outBuf
        freeNext := s.freeNext + s.abandonedRange c } := by
  unfold State.abandon State.freeOut State.engineReset
  rw [State.fillFree_eq]

/-! ### Multi-byte memory primitives of R15 with `n = 1` -/

theorem State.memReadLe_one (s : State) (a : Addr) :
    s.memReadLe a 1 = (s.memRead a).toNat := by
  simp [State.memReadLe]

theorem State.memWriteLe_one (s : State) (a : Addr) (v : Byte) :
    s.memWriteLe a 1 v.toNat = s.memWrite a v := by
  simp [State.memWriteLe]

end Sys2Proof.Machine
end

