-- ==== Sys2Proof/Laws/Exec.lean ====
section
/-! SUPPORT. Per meaning, the two forms it can take: the error it raises and its next state; the two
cases of a step. -/

namespace Sys2Proof.Machine

theorem State.wvalid_iff (s : State) : s.wvalid = true ↔ s.wmask = wmaskFull := by
  simp [State.wvalid]

theorem State.lengthsOk_iff (s : State) : s.lengthsOk = true ↔ s.klen = 32#32 ∧ s.nlen = 12#32 := by
  simp [State.lengthsOk]

/-- R165: the overflow test over a chunk count. -/
theorem counterOverflows_eq_true_iff (c : Word) (n : Nat) :
    counterOverflows c n = true ↔ 1 ≤ n ∧ c.toNat + n - 1 > 2 ^ 32 - 1 := by
  simp [counterOverflows]

/-- The conditions of a successful ENC or DEC, said of the registers, are the checks passed. -/
theorem State.processReady_iff (s : State) : s.ProcessReady ↔ s.processCheck = none := by
  rw [State.processCheck_eq_none, State.lengthsOk_iff]
  have hb : s.ilen = 0#64 ↔ s.ilen.toNat = 0 :=
    ⟨fun h => by rw [h]; rfl, fun h => BitVec.eq_of_toNat_eq h⟩
  have ho : counterOverflows s.ictr (chunkCount s.ilen.toNat) = false ↔
      (s.ilen = 0#64 ∨ s.ictr.toNat + (s.ilen.toNat + 63) / 64 - 1 ≤ 2 ^ 32 - 1) := by
    rw [← Bool.not_eq_true, counterOverflows_eq_true_iff, hb]
    unfold chunkCount
    omega
  rw [ho]
  exact ⟨fun h => ⟨⟨h.1, h.2⟩, h.3, h.4⟩, fun h => ⟨h.1.1, h.1.2, h.2.1, h.2.2⟩⟩

theorem State.mixTo_of_valid (s : State) (m : WordState) (h : s.wmask = wmaskFull) :
    s.mixTo m = { s with w := m, err := .ok } := by
  rw [State.mixTo, if_pos ((State.wvalid_iff s).mpr h)]
  rfl

theorem State.mixTo_of_invalid (s : State) (m : WordState) (h : s.wmask ≠ wmaskFull) :
    s.mixTo m = s.raise .stateUninitialized := by
  rw [State.mixTo, if_neg fun e => h ((State.wvalid_iff s).mp e)]

theorem execInit_of_lengths (s : State) (h : s.lengthsOk = true) :
    execInit s = .next (s.initMatrix s.ictr).complete := by
  rw [execInit, if_pos h]

theorem execBlock_of_lengths (s : State) (h : s.lengthsOk = true) :
    execBlock s = .next (s.generate s.ictr).complete := by
  rw [execBlock, if_pos h]

theorem execSer_of_ready (s : State) (hw : s.wmask = wmaskFull) (ho : s.olen = 64#64) :
    execSer s = .next (s.memWriteList 0 (serBytes s.w).toList).complete := by
  simp [execSer, (State.wvalid_iff s).mpr hw, ho]

/-- Every meaning answers a next state; these are the only cases there are (R176, R211): an error
recorded, or the command's own effect. -/
theorem exec_cases (i : Instr) (s : State) :
    (∃ e, e ≠ .ok ∧ exec i s = .next (s.raise e)) ∨
    (∃ m, s.wmask = wmaskFull ∧ exec i s = .next { s with w := m, err := .ok } ∧
      ((∃ x y z r, i = .round x y z r ∧ m = roundStep s.w x y z r.val) ∨
       (∃ a b c d, i = .qround a b c d ∧ m = quarterRound s.w a b c d) ∨
       (i = .dround ∧ m = doubleRound s.w))) ∨
    (i = .init ∧ s.lengthsOk = true ∧ exec i s = .next (s.initMatrix s.ictr).complete) ∨
    (i = .block ∧ s.lengthsOk = true ∧ exec i s = .next (s.generate s.ictr).complete) ∨
    (i = .ser ∧ s.wmask = wmaskFull ∧ s.olen = 64#64 ∧
      exec i s = .next (s.memWriteList 0 (serBytes s.w).toList).complete) ∨
    ((i = .enc ∨ i = .dec) ∧ s.processCheck = none ∧ exec i s = .next s.process) ∨
    (i = .wipe ∧ exec i s = .next s.wipeScratch.complete) ∨
    (i = .clrkey ∧
      exec i s = .next { s with key := Vector.replicate 32 0, klen := 0 }.complete) := by
  have mix : ∀ m : WordState,
      (∃ e, e ≠ ErrCode.ok ∧ s.mixTo m = s.raise e) ∨
        (s.wmask = wmaskFull ∧ s.mixTo m = { s with w := m, err := .ok }) := by
    intro m
    by_cases h : s.wmask = wmaskFull
    · exact .inr ⟨h, State.mixTo_of_valid s m h⟩
    · exact .inl ⟨.stateUninitialized, by decide, State.mixTo_of_invalid s m h⟩
  have proc : (∃ e, e ≠ ErrCode.ok ∧ s.process = s.raise e) ∨ s.processCheck = none := by
    cases h : s.processCheck with
    | none => exact .inr rfl
    | some e =>
      refine .inl ⟨e, ?_, State.process_of_error s h⟩
      rcases State.processCheck_mem s h with rfl | rfl | rfl <;> decide
  cases i with
  | round x y z r =>
    rcases mix (roundStep s.w x y z r.val) with ⟨e, he, hm⟩ | ⟨hv, hm⟩
    · exact .inl ⟨e, he, congrArg _ hm⟩
    · exact .inr (.inl ⟨_, hv, congrArg _ hm, .inl ⟨x, y, z, r, rfl, rfl⟩⟩)
  | qround a b c d =>
    rcases mix (quarterRound s.w a b c d) with ⟨e, he, hm⟩ | ⟨hv, hm⟩
    · exact .inl ⟨e, he, congrArg _ hm⟩
    · exact .inr (.inl ⟨_, hv, congrArg _ hm, .inr (.inl ⟨a, b, c, d, rfl, rfl⟩)⟩)
  | dround =>
    rcases mix (doubleRound s.w) with ⟨e, he, hm⟩ | ⟨hv, hm⟩
    · exact .inl ⟨e, he, congrArg _ hm⟩
    · exact .inr (.inl ⟨_, hv, congrArg _ hm, .inr (.inr ⟨rfl, rfl⟩)⟩)
  | init =>
    by_cases h : s.lengthsOk = true
    · exact .inr (.inr (.inl ⟨rfl, h, execInit_of_lengths s h⟩))
    · exact .inl ⟨.invalidLength, by decide, by simp only [exec, execInit, if_neg h]⟩
  | block =>
    by_cases h : s.lengthsOk = true
    · exact .inr (.inr (.inr (.inl ⟨rfl, h, execBlock_of_lengths s h⟩)))
    · exact .inl ⟨.invalidLength, by decide, by simp only [exec, execBlock, if_neg h]⟩
  | ser =>
    by_cases hw : s.wmask = wmaskFull
    · by_cases ho : s.olen = 64#64
      · exact .inr (.inr (.inr (.inr (.inl ⟨rfl, hw, ho, execSer_of_ready s hw ho⟩))))
      · refine .inl ⟨.invalidLength, by decide, ?_⟩
        simp [exec, execSer, (State.wvalid_iff s).mpr hw, ho]
    · refine .inl ⟨.stateUninitialized, by decide, ?_⟩
      have hv : s.wvalid = false := by simpa [State.wvalid] using hw
      simp [exec, execSer, hv]
  | enc =>
    rcases proc with ⟨e, he, hp⟩ | h
    · exact .inl ⟨e, he, congrArg _ hp⟩
    · exact .inr (.inr (.inr (.inr (.inr (.inl ⟨.inl rfl, h, rfl⟩)))))
  | dec =>
    rcases proc with ⟨e, he, hp⟩ | h
    · exact .inl ⟨e, he, congrArg _ hp⟩
    · exact .inr (.inr (.inr (.inr (.inr (.inl ⟨.inr rfl, h, rfl⟩)))))
  | wipe => exact .inr (.inr (.inr (.inr (.inr (.inr (.inl ⟨rfl, rfl⟩))))))
  | clrkey => exact .inr (.inr (.inr (.inr (.inr (.inr (.inr ⟨rfl, rfl⟩))))))

/-- The two cases of a step: idle, or the oldest access served. -/
theorem step_cases (s : State) :
    (s.pending = [] ∧ step s = .next s) ∨
      ∃ m rest, s.pending = m :: rest ∧ step s = perform m (s.serving rest) := by
  unfold step
  split
  · exact .inl ⟨‹_›, rfl⟩
  · exact .inr ⟨_, _, ‹_›, rfl⟩

end Sys2Proof.Machine
end

