-- ==== Sys2Proof/Laws/Operands.lean ====
section
/-! SUPPORT. The small lemmas of the pure functions: words and bytes, one round step read word by
word, the words of InitWords, SerBytes and the feed-forward, the decoder's fields. -/

namespace Sys2Proof.Machine

/-! ### Words and bytes -/

theorem byteAt_of_lt {n : Nat} (bytes : Vector Byte n) {i : Nat} (h : i < n) :
    byteAt bytes i = bytes[i] := by
  simp [byteAt, h]

theorem toNat_byteOf (v : Word) (k : Nat) : (byteOf v k).toNat = v.toNat / 2 ^ (8 * k) % 2 ^ 8 := by
  simp [byteOf, slice]

theorem toNat_le32 (b0 b1 b2 b3 : Byte) :
    (le32 b0 b1 b2 b3).toNat
      = b0.toNat + 2 ^ 8 * b1.toNat + 2 ^ 16 * b2.toNat + 2 ^ 24 * b3.toNat := by
  have h0 := b0.isLt
  have h1 := b1.isLt
  have h2 := b2.isLt
  have h3 := b3.isLt
  simp only [le32, BitVec.toNat_ofNat]
  omega

/-- R64: a bus word written to a byte register is the word read back. -/
theorem wordOfBytes_setWordOfBytes {n : Nat} (bytes : Vector Byte n) (j : Nat) (v : Word)
    (h : 4 * j + 3 < n) : wordOfBytes (setWordOfBytes bytes j v) j = v := by
  apply BitVec.eq_of_toNat_eq
  have hb : ∀ k, k < 4 → byteAt (setWordOfBytes bytes j v) (4 * j + k) = byteOf v k := by
    intro k hk
    rw [byteAt_of_lt _ (by omega)]
    rcases k with _ | _ | _ | _ | k
    · simp [setWordOfBytes]
    · simp [setWordOfBytes]
    · simp [setWordOfBytes]
    · simp [setWordOfBytes]
    · omega
  have h0 := hb 0 (by omega)
  rw [Nat.add_zero] at h0
  rw [wordOfBytes, toNat_le32, h0, hb 1 (by omega), hb 2 (by omega), hb 3 (by omega)]
  simp only [toNat_byteOf]
  have := v.isLt
  omega

/-- R45: a word written to a byte register leaves the bytes of every other word alone. -/
theorem getElem_setWordOfBytes_ne {n : Nat} (bytes : Vector Byte n) (j : Nat) (v : Word) {a : Nat}
    (ha : a < n) (h : a / 4 ≠ j) : (setWordOfBytes bytes j v)[a] = bytes[a] := by
  have h0 : 4 * j ≠ a := by omega
  have h1 : 4 * j + 1 ≠ a := by omega
  have h2 : 4 * j + 2 ≠ a := by omega
  have h3 : 4 * j + 3 ≠ a := by omega
  simp [setWordOfBytes, h0, h1, h2, h3]

theorem getElem_setWordOfBytes_same {n : Nat} (bytes : Vector Byte n) (j : Nat) (v : Word)
    (k : Fin 4) (h : 4 * j + k.val < n) :
    (setWordOfBytes bytes j v)[4 * j + k.val] = byteOf v k.val := by
  fin_cases k <;> simp [setWordOfBytes]

/-! ### Round steps, word by word -/

/-- The words a round step does not name are unchanged (R120). -/
theorem getElem_roundStep_ne (m : WordState) (x y z : Fin 16) (r : Nat) {k : Nat} (hk : k < 16)
    (hx : k ≠ x.val) (hy : k ≠ y.val) : (roundStep m x y z r)[k] = m[k] := by
  simp [roundStep, Vector.getElem_set, hx.symm, hy.symm]

/-- R120 with `x ≠ y`: the sum. -/
theorem getElem_roundStep_fst (m : WordState) {x y z : Fin 16} (r : Nat) (h : x ≠ y) :
    (roundStep m x y z r)[x.val] = add32 m[x.val] m[z.val] := by
  have hv : y.val ≠ x.val := fun e => h (Fin.ext e.symm)
  simp [roundStep, Vector.getElem_set, hv]

/-- R120 with `x ≠ y`: the rotated exclusive or. -/
theorem getElem_roundStep_snd (m : WordState) {x y z : Fin 16} (r : Nat) (h : x ≠ y) :
    (roundStep m x y z r)[y.val] =
      rotl32 (xor32 m[y.val] (add32 m[x.val] m[z.val])) r := by
  have hv : y.val ≠ x.val := fun e => h (Fin.ext e.symm)
  simp [roundStep, hv.symm]

/-- R120 cases (d) and (f): with `y = x` the word ends as 0. -/
theorem getElem_roundStep_self (m : WordState) (x z : Fin 16) (r : Nat) :
    (roundStep m x x z r)[x.val] = 0 := by
  simp [roundStep, xor32, rotl32]

/-! ### The matrix functions, word by word -/

theorem getElem_addWords (m s : WordState) {k : Nat} (hk : k < 16) :
    (addWords m s)[k] = add32 m[k] s[k] := by
  simp [addWords]

theorem getElem_serBytes (m : WordState) {q : Nat} (hq : q < 64) :
    (serBytes m)[q] = byteOf (m[q / 4]'(by omega)) (q % 4) := by
  simp [serBytes]

theorem doubleRounds_succ (k : Nat) (m : WordState) :
    doubleRounds (k + 1) m = doubleRound (doubleRounds k m) := by
  induction k generalizing m with
  | zero => rfl
  | succ k ih => rw [doubleRounds, ih]; rfl

end Sys2Proof.Machine
end

