-- ==== Sys2Proof/Laws/PerInstr.lean ====
section
/-! SUPPORT. Statements about a command as syntax, one lemma per constructor.

`RowOfMnemonic`: the opcode table has exactly one row of the command's mnemonic (R96), and that row's
match has the opcode field of the command's word. -/

namespace Sys2Proof.Laws.RowOfMnemonic

/-- The row of the command's mnemonic is unique, and the opcode field of the command's word is the
opcode field of that row's match. -/
def Statement (i : Instr) : Prop :=
  ∃ row, opcodeTable.filter (fun r => r.mnemonic = i.mnemonic) = [row] ∧
    slice (encode i) 31 24 = slice row.value 31 24

theorem round (x y z : Fin 16) (r : Fin 32) : Statement (.round x y z r) := by
  refine ⟨_, rfl, ?_⟩
  have := x.isLt
  have := y.isLt
  have := z.isLt
  have := r.isLt
  simp only [slice, encode, BitVec.toNat_ofNat]
  omega

theorem qround (a b c d : Fin 16) : Statement (.qround a b c d) := by
  refine ⟨_, rfl, ?_⟩
  have := a.isLt
  have := b.isLt
  have := c.isLt
  have := d.isLt
  simp only [slice, encode, BitVec.toNat_ofNat]
  omega

theorem dround : Statement .dround := ⟨_, rfl, rfl⟩

theorem init : Statement .init := ⟨_, rfl, rfl⟩

theorem block : Statement .block := ⟨_, rfl, rfl⟩

theorem ser : Statement .ser := ⟨_, rfl, rfl⟩

theorem enc : Statement .enc := ⟨_, rfl, rfl⟩

theorem dec : Statement .dec := ⟨_, rfl, rfl⟩

theorem wipe : Statement .wipe := ⟨_, rfl, rfl⟩

theorem clrkey : Statement .clrkey := ⟨_, rfl, rfl⟩

end Sys2Proof.Laws.RowOfMnemonic
end

