-- ==== Sys2Proof/Machine/Assembler.lean ====
section
/-! DEFINITION. A line of text as a command (R99): the comment, the mnemonic, the numbers between the
commas. Which characters may stand between them is the model's choice (log entry 10). -/

namespace Sys2Proof.Machine

/-- R99: `;` starts a comment. -/
def withoutComment (line : List Char) : List Char := line.takeWhile fun c => c != ';'

/-- Spaces and tabs at both ends of a piece of text taken away. -/
def trimBlank (text : List Char) : List Char :=
  let blank := fun c : Char => c == ' ' || c == '\t'
  ((text.dropWhile blank).reverse.dropWhile blank).reverse

/-- The pieces of a text between its commas. -/
def splitAtCommas : List Char → List (List Char)
  | [] => [[]]
  | c :: cs =>
    match splitAtCommas cs with
    | [] => [[c]]
    | piece :: pieces => if c == ',' then [] :: piece :: pieces else (c :: piece) :: pieces

/-- The value of a digit; the letters of a hexadecimal digit in either case. -/
def digitValue (c : Char) : Option Nat :=
  if '0' ≤ c ∧ c ≤ '9' then some (c.toNat - '0'.toNat)
  else if 'a' ≤ c ∧ c ≤ 'f' then some (10 + (c.toNat - 'a'.toNat))
  else if 'A' ≤ c ∧ c ≤ 'F' then some (10 + (c.toNat - 'A'.toNat))
  else none

/-- The number that digits of a base write after what has been read already. -/
def numberFrom (base : Nat) : Nat → List Char → Option Nat
  | acc, [] => some acc
  | acc, c :: cs =>
    match digitValue c with
    | some d => if d < base then numberFrom base (base * acc + d) cs else none
    | none => none

/-- R99: a decimal number or a `0x` hexadecimal number, of one digit at least. -/
def parseNumber : List Char → Option Nat
  | [] => none
  | '0' :: 'x' :: [] => none
  | '0' :: 'x' :: digits => numberFrom 16 0 digits
  | digits => numberFrom 10 0 digits

/-- R99: the operands after the mnemonic, separated by commas. -/
def parseOperands (text : List Char) : Option (List Nat) :=
  match trimBlank text with
  | [] => some []
  | body => (splitAtCommas body).mapM fun piece => parseNumber (trimBlank piece)

/-- R99: the parts of a line of text. -/
def parseLine (text : List Char) : Option AsmLine :=
  let body := trimBlank (withoutComment text)
  let word := fun c : Char => c != ' ' && c != '\t'
  match parseOperands (body.dropWhile word) with
  | some operands => some ⟨String.ofList (body.takeWhile word), operands⟩
  | none => none

/-- R99: the command that a line of text stands for. -/
def assembleText (text : String) : Option Instr :=
  match parseLine text.toList with
  | some line => assemble line
  | none => none

end Sys2Proof.Machine
end

