-- ==== Sys2Proof/Tests/Slice0.lean ====
section
/-! SUPPORT. Tests. Expected values are those of spec/95_test_vectors.md (the V- number stands at each
test) or are written out from the encoding tables of 30_encoding.md. The witnesses show that the
hypotheses of the statements can be met. -/

namespace Sys2Proof.Tests

open Sys2Proof Sys2Proof.Machine

/-! ## Helpers -/

/-- The next state of an outcome. -/
def after (o : Host.Outcome State Fault Refusal) : Option State :=
  match o with
  | .next t => some t
  | .fault _ => none
  | .refused _ => none

/-- The word the host received in the next state. -/
def replyOf (o : Host.Outcome State Fault Refusal) : Option Reply := (after o).map (·.reply)

/-- STATUS and some words of W in the next state. -/
def look (o : Host.Outcome State Fault Refusal) (ks : List (Fin 16)) : Option (Word × List Word) :=
  (after o).map fun t => (t.status, ks.map fun k => t.w[k.val])

/-- All words of W loaded by the host. -/
def loaded (w : WordState) : State := { State.reset with w := w, wmask := 0xFFFF#16 }

/-- Both lengths declared, key and nonce zero. -/
def declared : State := { State.reset with klen := 32#32, nlen := 12#32 }

/-- `declared` with a counter and with ILEN and OLEN. -/
def message (ctr : Word) (ilen olen : BitVec 64) : State :=
  { declared with ictr := ctr, ilen := ilen, olen := olen }

/-- The key of V-I1. -/
def key1 : Vector Byte 32 := Vector.ofFn fun i => BitVec.ofNat 8 i.val

/-- The operands of V-I1. -/
def operands1 : State :=
  { declared with
    key := key1
    nonce := #v[0, 0, 0, 9, 0, 0, 0, 0x4a, 0, 0, 0, 0]
    ictr := 1#32 }

/-! ## Well-formedness: an ill-formed term for each check -/

theorem test_word_unknown_opcode_refused : commandWordWellFormed 0x0b000000#32 = false := by decide

theorem test_word_f0_low_bit_refused : commandWordWellFormed 0x03000001#32 = false := by decide

theorem test_word_round_bit_17_refused : commandWordWellFormed 0x01020000#32 = false := by decide

theorem test_word_qround_bit_16_refused : commandWordWellFormed 0x02010000#32 = false := by decide

theorem test_line_unknown_mnemonic_refused : (AsmLine.mk "NOP" []).wellFormed = false := by decide

theorem test_line_operand_count_refused : (AsmLine.mk "QROUND" [0, 1, 2]).wellFormed = false := by
  decide

theorem test_line_index_16_refused : (AsmLine.mk "ROUND" [0, 16, 1, 7]).wellFormed = false := by
  decide

theorem test_line_rotation_32_refused : (AsmLine.mk "ROUND" [0, 3, 1, 32]).wellFormed = false := by
  decide

theorem test_access_misaligned_refused :
    (HostMove.readReg 0x42 4).wellFormed = false ∧
      after (perform (.readReg 0x42 4) State.reset) = none := by
  decide

theorem test_access_out_of_range_refused :
    (HostMove.writeReg 0x100 4 0).wellFormed = false ∧
      after (perform (.writeReg 0x100 4 0) State.reset) = none := by
  decide

theorem test_access_width_refused :
    (HostMove.writeReg 0x08 2 0).wellFormed = false ∧
      after (perform (.writeReg 0x08 2 0) State.reset) = none := by
  decide

/-! ## Decoding: words written out from the tables of R91 to R93 and R96 -/

-- opcode 00000001, zero 0000000, r 10000, z 0001, y 0011, x 0000 (R99)
theorem test_decode_round :
    decode 0b00000001000000010000000100110000#32 = .command (.round 0 3 1 16) := by decide

-- opcode 00000010, zero 00000000, d 1101, c 1000, b 0111, a 0010 (R99)
theorem test_decode_qround :
    decode 0b00000010000000001101100001110010#32 = .command (.qround 2 7 8 13) := by decide

theorem test_decode_dround :
    decode 0b00000011000000000000000000000000#32 = .command .dround := by decide

theorem test_decode_init :
    decode 0b00000100000000000000000000000000#32 = .command .init := by decide

theorem test_decode_block :
    decode 0b00000101000000000000000000000000#32 = .command .block := by decide

theorem test_decode_ser :
    decode 0b00000110000000000000000000000000#32 = .command .ser := by decide

theorem test_decode_enc :
    decode 0b00000111000000000000000000000000#32 = .command .enc := by decide

theorem test_decode_dec :
    decode 0b00001000000000000000000000000000#32 = .command .dec := by decide

theorem test_decode_wipe :
    decode 0b00001001000000000000000000000000#32 = .command .wipe := by decide

theorem test_decode_clrkey :
    decode 0b00001010000000000000000000000000#32 = .command .clrkey := by decide

-- V-X1, V-X2
theorem test_decode_illegal :
    decode 0x00000000#32 = .illegal .unknownOpcode ∧ decode 0x7f000000#32 = .illegal .unknownOpcode ∧
      decode 0x07800000#32 = .illegal .nonzeroMustBeZero ∧
      decode 0x0a000100#32 = .illegal .nonzeroMustBeZero := by
  decide

theorem test_decode_table_word :
    decodeTableWord 32 0x01001def = some (.round 15 14 13 1) ∧
      decodeTableWord 32 0xffffffff = none := by
  decide

-- R99
theorem test_assemble :
    assemble ⟨"ROUND", [0, 3, 1, 16]⟩ = some (.round 0 3 1 16) ∧
      encode (.round 0 3 1 16) = 0x01010130#32 ∧ assemble ⟨"DROUND", []⟩ = some .dround := by
  decide

-- R99: the example with a hexadecimal number and a comment; lower case is no mnemonic
theorem test_assemble_text :
    assembleText "ROUND 0, 3, 1, 0x10 ; one step" = some (.round 0 3 1 16) ∧
      assembleText "QROUND 2, 7, 8, 13" = some (.qround 2 7 8 13) ∧
      assembleText "DROUND" = some .dround ∧ assembleText "dround" = none ∧
      assembleText "ROUND 0, 3, , 1" = none := by
  decide +kernel

/-! ## The mixing commands -/

-- V-R8: y = z, the sum uses the old word
theorem test_round_repeated_index :
    look (exec (.round 10 9 9 4)
      (loaded #v[0, 0, 0, 0, 0, 0, 0, 0, 0, 0x40000001, 0xdeadbeef, 0, 0, 0, 0, 0])) [9, 10]
      = some (0xFFFF0010#32, [0xeadbef15#32, 0x1eadbef0#32]) := by
  decide +kernel

-- V-R10: W15 never written
theorem test_round_not_valid :
    look (exec (.round 0 3 1 16) { State.reset with wmask := 0x7FFF#16 }) [0]
      = some (0x7FFF0007#32, [0]) := by
  decide +kernel

-- V-Q1
theorem test_qround_published :
    look (exec (.qround 0 1 2 3)
      (loaded #v[0x11111111, 0x01020304, 0x9b8d6f43, 0x01234567, 0, 0, 0, 0, 0, 0, 0, 0, 0, 0, 0, 0]))
      [0, 1, 2, 3, 4]
      = some (0xFFFF0010#32,
          [0xea2a92f4#32, 0xcb1cf8ce#32, 0x4581472e#32, 0x5881c4bb#32, 0]) := by
  decide +kernel

-- V-Q6: a = c, b = d
theorem test_qround_repeated_indices :
    look (exec (.qround 0 1 0 1) (loaded #v[1, 2, 0, 0, 0, 0, 0, 0, 0, 0, 0, 0, 0, 0, 0, 0])) [0, 1]
      = some (0xFFFF0010#32, [0x01013303#32, 0x00980180#32]) := by
  decide +kernel

-- V-D1
theorem test_dround :
    (after (exec .dround (loaded #v[0, 1, 2, 3, 4, 5, 6, 7, 8, 9, 10, 11, 12, 13, 14, 15]))).map (·.w)
      = some #v[0xa9295c6a, 0xb471be7a, 0x38e65ec4, 0x74348b87, 0xf1ad76c6, 0x7b44627b, 0x946682b0,
          0xf12f4910, 0xd7e22f80, 0x3232ddd4, 0xb5b3b74d, 0xc0240444, 0xc8a5de45, 0xe417e1d3,
          0x1a392478, 0x983c4ebf] := by
  decide +kernel

/-! ## The block commands -/

-- V-I1
theorem test_init :
    look (exec .init operands1) [0, 3, 4, 11, 12, 13, 14, 15]
      = some (0xFFFF0010#32, [0x61707865#32, 0x6b206574#32, 0x03020100#32, 0x1f1e1d1c#32, 1#32,
          0x09000000#32, 0x4a000000#32, 0]) := by
  decide +kernel

-- V-I4 (f): a failed INIT leaves W and WMASK alone
theorem test_init_length :
    look (exec .init { State.reset with w := State.reset.w.set 0 5, wmask := 1#16 }) [0]
      = some (0x00010001#32, [5#32]) := by
  decide +kernel

-- V-B0
theorem test_block :
    (after (exec .block operands1)).map (·.w)
      = some #v[0xe4e7f110, 0x15593bd1, 0x1fdd0f50, 0xc47120a3, 0xc7f4d1c7, 0x0368c033, 0x9aaa2204,
          0x4e6cd4c3, 0x466482d2, 0x09aa9f07, 0x05d7c214, 0xa2028bd9, 0xd19c12b5, 0xb94e16de,
          0xe883d0cb, 0x4e3c50a2] := by
  decide +kernel

-- V-B7: the counter is not byte-swapped
theorem test_block_counter_order :
    look (exec .block { declared with ictr := 0x01000000#32 }) [0, 1]
      = some (0xFFFF0010#32, [0x6394aa44#32, 0x808f4a79#32]) := by
  decide +kernel

-- V-S3: byte k of word i goes to address 4i + k
theorem test_ser :
    (after (exec .ser { loaded (Vector.ofFn fun i => BitVec.ofNat 32 (0x03020100 + 0x04040404 * i.val))
        with olen := 64#64 })).map (fun t => (List.range 66).map t.outBuf.read)
      = some ((List.range 64).map (BitVec.ofNat 8) ++ [0, 0]) := by
  decide +kernel

-- V-S4 (e): StateUninitialized before InvalidLength
theorem test_ser_priority :
    look (exec .ser { State.reset with olen := 63#64 }) [] = some (0x00000007#32, []) := by
  decide +kernel

/-! ## ENC and DEC -/

-- V-L2: one byte of keystream, the next byte keeps its prefill
theorem test_enc_one_byte :
    (after (exec .enc { message 0 1 1 with outBuf := [(0, 0xee), (1, 0xee)] })).map
        (fun t => (t.outBuf, t.status, t.w[0]))
      = some ([(0, 0x76), (1, 0xee)], 0#32, 0#32) := by
  decide +kernel

-- V-F13, V-F14: LengthMismatch before CounterOverflow, then CounterOverflow
theorem test_enc_errors :
    (after (exec .enc (message 0xffffffff 65 64))).map (·.err) = some .lengthMismatch ∧
      (after (exec .enc (message 0xffffffff 65 65))).map (·.err) = some .counterOverflow := by
  decide +kernel

-- V-F6 with an input byte: 0xac is the first keystream byte of V-B8, so DEC of 0xac gives 0
theorem test_dec_last_counter :
    (after (exec .dec { message 0xffffffff 1 1 with inBuf := [(0, 0xac)], outBuf := [(0, 0xee)] })).map
        (fun t => (t.outBuf, t.status)) = some ([], 0#32) := by
  decide +kernel

-- V-F11
theorem test_dec_overflow :
    (after (exec .dec (message 0xffffffff 65 65))).map (·.status) = some 0x00000004#32 := by
  decide +kernel

/-! ## Housekeeping -/

-- V-H5
theorem test_wipe :
    look (exec .wipe { State.reset with w := State.reset.w.set 0 5, wmask := 1#16 }) [0]
      = some (0x00000000#32, [0]) := by
  decide +kernel

-- V-H4, and the key bytes are gone (V-H2)
theorem test_clrkey :
    (after (exec .clrkey { operands1 with w := State.reset.w.set 0 5, wmask := 1#16 })).map
        (fun t => (t.status, t.w[0], t.klen, t.key)) =
      some (0x00010000#32, 5#32, 0#32, Vector.replicate 32 0) := by
  decide +kernel

/-! ## Illegal words, host accesses, reset -/

-- V-X5: IllegalCommand first
theorem test_illegal_word :
    look (issue 0x03000001#32 State.reset) [] = some (0x00000006#32, []) := by decide +kernel

-- V-A1
theorem test_key_not_readable :
    replyOf (perform (.readReg 0x40 4) operands1) = some (.word 0) ∧
      replyOf (perform (.readReg 0x14 4) operands1) = some (.word 0) := by
  decide +kernel

-- V-A2
theorem test_nonce_word :
    (after (perform (.writeReg 0x60 4 0x09000000) State.reset)).map
        (fun t => (t.readReg (.noncew 0), t.nonce.toList.take 4)) =
      some (0x09000000#32, [0, 0, 0, 9]) := by
  decide +kernel

-- V-A4: writing the value 0 still sets the mask bit
theorem test_word_write_sets_mask :
    (after (perform (.writeReg 0x80 4 0) State.reset)).map (·.status) = some 0x00010000#32 := by
  decide +kernel

-- V-A5: the halves are independent
theorem test_ilen_halves :
    (after (perform (.writeReg 0x1C 4 1) State.reset)).map
        (fun t => (t.readReg .ilenLo, t.readReg .ilenHi, t.ilen)) =
      some (0#32, 1#32, 0x100000000#64) := by
  decide +kernel

-- R230
theorem test_reset_keeps_buffers :
    (after (perform .reset { operands1 with outBuf := [(3, 7)], err := .lengthMismatch })).map
        (fun t => (t.outBuf, t.klen, t.status)) = some ([(3, 7)], 0#32, 0#32) := by
  decide +kernel

-- R38: every register of the map stands at its own offset
theorem test_register_map :
    (List.range 64).map (fun k => (regAt (4 * k)).map RegName.offset)
      = (List.range 64).map fun k =>
          if k = 5 ∨ (10 ≤ k ∧ k ≤ 15) ∨ (27 ≤ k ∧ k ≤ 31) ∨ 48 ≤ k then none else some (4 * k) := by
  decide +kernel

-- a write of the value an unlisted byte reads as removes the entry
theorem test_memory_canonical :
    Memory.write [(1, 5), (4, 6)] 1 0 = [(4, 6)] ∧ Memory.write [(1, 5), (4, 6)] 2 9
      = [(1, 5), (2, 9), (4, 6)] := by
  decide

theorem test_fetch_word_runs_first :
    (after (step (State.reset.withFetchWord 32 0x03000000))).map (·.status) = some 0x00000007#32 := by
  decide +kernel

/-! ## Witnesses: the hypotheses of each statement can be met, at the ends of their ranges -/

/-- The host's access standing alone before the engine. -/
def waiting (m : HostMove) : State := { State.reset with pending := [m] }

theorem witness_EncodeOfDecodeIsTheWord :
    decode 0x0101ffff#32 = .command (.round 15 15 15 31) ∧
      decode 0x01000000#32 = .command (.round 0 0 0 0) := by
  decide

theorem witness_DecoderAgreesWithTheOpcodeTable :
    (slice 0x00ffffff#32 31 24 ∉ [1, 2, 3, 4, 5, 6, 7, 8, 9, 10] ∧
      slice 0x0b000000#32 31 24 ∉ [1, 2, 3, 4, 5, 6, 7, 8, 9, 10]) ∧
    (slice 0x01020000#32 31 24 = 1 ∧ slice 0x01020000#32 23 17 ≠ 0) ∧
    (slice 0x02010000#32 31 24 = 2 ∧ slice 0x02010000#32 23 16 ≠ 0) ∧
    (slice 0x03000001#32 31 24 = 3 ∧ slice 0x03000001#32 23 0 ≠ 0) ∧
    (slice 0x0a800000#32 31 24 = 10 ∧ slice 0x0a800000#32 23 0 ≠ 0) ∧
    decode 0x0101ffff#32 = .command (.round 15 15 15 31) ∧
    decode 0x0200ffff#32 = .command (.qround 15 15 15 15) ∧
    ∀ row ∈ opcodeTable, row.accepts row.value = true := by
  decide

theorem witness_IllegalWordRaisesIllegalCommandOnly :
    decode 0x0bffffff#32 = .illegal .unknownOpcode ∧
      decode 0x01fe0000#32 = .illegal .nonzeroMustBeZero ∧
      decode 0x02ff0000#32 = .illegal .nonzeroMustBeZero := by
  decide

theorem witness_AssemblerAgreesWithTheCommands :
    assemble ⟨"ROUND", [15, 15, 15, 31]⟩ = some (.round 15 15 15 31) ∧
      (AsmLine.mk "WIPE" []).wellFormed = true := by
  decide

theorem witness_StepRunsTheDecodedCommand :
    (waiting (.writeReg 0 4 0x09000000)).pending = .writeReg 0 4 0x09000000 :: [] ∧
      decode 0x09000000#32 = .command .wipe ∧
      (waiting (.writeReg 0 4 0x0b000000)).pending = .writeReg 0 4 0x0b000000 :: [] ∧
      decode 0x0b000000#32 = .illegal .unknownOpcode ∧
      0x0a000000 < 2 ^ 32 ∧ decode (BitVec.ofNat 32 0x0a000000) = .command .clrkey := by
  decide

theorem witness_IdleEngineKeepsItsState : State.reset.pending = [] := by decide

theorem witness_OnlyBadRegisterAccessesAreRefused :
    (∀ o ∈ [0x00, 0xFC], (waiting (.readReg o 4)).pending = .readReg o 4 :: [] ∧
      o % 4 = 0 ∧ o < 0x100) ∧
    (∀ p ∈ [(0x100, 4), (0x42, 4), (0x08, 2), (0x08, 8)],
      (waiting (.writeReg p.1 p.2 0)).pending = .writeReg p.1 p.2 0 :: [] ∧
      ¬(p.2 = 4 ∧ p.1 % 4 = 0 ∧ p.1 < 0x100)) ∧
    (waiting .reset).pending = .reset :: [] := by
  decide

theorem witness_RoundResult :
    (loaded (Vector.replicate 16 1)).wmask = 0xFFFF#16 ∧ (declared).wmask ≠ 0xFFFF#16 ∧
      ({ declared with wmask := 0x7FFF#16 } : State).wmask ≠ 0xFFFF#16 ∧
      (0 : Fin 16) ≠ 15 ∧ (7 : Fin 16) ≠ 0 := by
  decide

theorem witness_QroundIsFourRounds :
    (loaded (Vector.replicate 16 0)).wmask = 0xFFFF#16 ∧
      ({ declared with wmask := 0xFFFE#16 } : State).wmask ≠ 0xFFFF#16 ∧
      (loaded (Vector.replicate 16 0)).w[15] = 0 ∧
      (∀ j ∈ [(0 : Fin 16), 1, 2, 3], (15 : Fin 16) ≠ j) := by
  decide

theorem witness_QroundOnOneIndexClearsTheWord :
    (loaded (Vector.replicate 16 1)).wmask = 0xFFFF#16 := by
  decide

theorem witness_DroundIsEightQrounds :
    (loaded (Vector.replicate 16 0)).wmask = 0xFFFF#16 ∧
      (loaded (Vector.replicate 16 0)).w = Vector.replicate 16 0 ∧ declared.wmask ≠ 0xFFFF#16 := by
  decide

theorem witness_DisjointQuarterRoundsCommute :
    (∀ k ∈ [(0 : Fin 16), 4, 8, 12], k ∉ [(1 : Fin 16), 5, 9, 13]) ∧
      (loaded (Vector.replicate 16 1)).wmask = 0xFFFF#16 := by
  decide

theorem witness_RoundWithDistinctIndicesCanBeUndone :
    (0 : Fin 16) ≠ 3 ∧ (0 : Fin 16) ≠ 1 ∧ (3 : Fin 16) ≠ 1 ∧
      (loaded (Vector.replicate 16 1)).wmask = 0xFFFF#16 := by
  decide

theorem witness_InitResult :
    (declared.klen = 32#32 ∧ declared.nlen = 12#32) ∧
      ({ declared with klen := 31#32 } : State).klen ≠ 32#32 ∧
      ({ declared with nlen := 13#32 } : State).nlen ≠ 12#32 := by
  decide

theorem witness_BlockResult :
    (operands1.klen = 32#32 ∧ operands1.nlen = 12#32) ∧
      ({ operands1 with klen := 33#32 } : State).klen ≠ 32#32 ∧
      ({ operands1 with nlen := 0#32 } : State).nlen ≠ 12#32 := by
  decide

theorem witness_BlockIsTheHostSequence :
    (message 0xffffffff 0 0).klen = 32#32 ∧ (message 0xffffffff 0 0).nlen = 12#32 := by
  decide

theorem witness_BlockThenSerGivesTheKeystream :
    (message 0xffffffff 0 64).klen = 32#32 ∧ (message 0xffffffff 0 64).nlen = 12#32 ∧
      (message 0xffffffff 0 64).olen = 64#64 := by
  decide

theorem witness_SerResult :
    declared.wmask ≠ 0xFFFF#16 ∧
      (loaded (Vector.replicate 16 1)).wmask = 0xFFFF#16 ∧
      ({ loaded (Vector.replicate 16 1) with olen := 63#64 } : State).olen ≠ 64#64 ∧
      ({ loaded (Vector.replicate 16 1) with olen := 64#64 } : State).olen = 64#64 := by
  decide

/-- The checks hold with no byte, with one chunk at the last counter, with two, and just below. -/
theorem witness_ProcessReady :
    (message 0xffffffff 0 0).ProcessReady ∧ (message 0xffffffff 64 64).ProcessReady ∧
      (message 0xfffffffe 65 65).ProcessReady ∧ (message 0 1 1).ProcessReady :=
  ⟨⟨rfl, rfl, rfl, by decide⟩, ⟨rfl, rfl, rfl, by decide⟩, ⟨rfl, rfl, rfl, by decide⟩,
    ⟨rfl, rfl, rfl, by decide⟩⟩

theorem witness_not_ProcessReady :
    ¬(message 0xffffffff 65 65).ProcessReady ∧ ¬(message 0 64 65).ProcessReady ∧
      ¬State.reset.ProcessReady :=
  ⟨fun h => absurd h.counterFits (by decide), fun h => absurd h.sameLength (by decide),
    fun h => absurd h.keyLength (by decide)⟩

theorem witness_EncAndDecResult :
    ({ message 0 1 1 with klen := 31#32 } : State).klen ≠ 32#32 ∧
      (message 0 1 0x100000001).olen ≠ (message 0 1 0x100000001).ilen ∧
      1 ≤ ((message 0xffffffff 65 65).ilen.toNat + 63) / 64 ∧
      (message 0xffffffff 65 65).ictr.toNat + ((message 0xffffffff 65 65).ilen.toNat + 63) / 64 - 1
        > 2 ^ 32 - 1 := by
  decide

theorem witness_ChunksCoverTheInput :
    0 < 2 ^ 64 ∧ 2 ^ 64 - 1 < 2 ^ 64 ∧ chunkCount 0 = 0 ∧ 0 + 1 = chunkCount 64 ∧
      0 + 1 < chunkCount 65 ∧ 1 + 1 = chunkCount 65 ∧ chunkCount (2 ^ 64 - 1) = 2 ^ 58 := by
  decide

theorem witness_CounterOverflowExactlyWhenAChunkNeedsIt :
    (message 0xffffffff 65 65).klen = 32#32 ∧ (message 0xffffffff 65 65).nlen = 12#32 ∧
      (message 0xffffffff 65 65).olen = (message 0xffffffff 65 65).ilen ∧
      1 < ((message 0xffffffff 65 65).ilen.toNat + 63) / 64 ∧
      (message 0xffffffff 65 65).ictr.toNat + 1 > 2 ^ 32 - 1 := by
  decide

theorem witness_EmptyInputCompletes :
    (message 0xffffffff 0 0).klen = 32#32 ∧ (message 0xffffffff 0 0).nlen = 12#32 ∧
      (message 0xffffffff 0 0).ilen = 0#64 ∧ (message 0xffffffff 0 0).olen = 0#64 := by
  decide

theorem witness_DecryptionRestoresTheInput :
    ∃ t : State, exec .enc { message 0xffffffff 2 2 with inBuf := [(0, 7)] } = .next t ∧ t.err = .ok ∧
      ∀ a, a < 2 → t.outBuf.read a = t.outBuf.read a :=
  ⟨_, rfl, by decide +kernel, fun _ _ => rfl⟩

theorem witness_ZeroInputGivesTheKeystream :
    (message 0 1 1).ProcessReady ∧
      ∀ a, a < (message 0 1 1).ilen.toNat → (message 0 1 1).inBuf.read a = 0 :=
  ⟨⟨rfl, rfl, rfl, by decide⟩, fun _ _ => rfl⟩

/-- Split before the last chunk, after it, and before the first. -/
theorem witness_MessageMayBeSplitAtAChunk :
    (message 0xfffffffe 65 65).ProcessReady ∧
      (∀ k ∈ [0, 1], 64 * k ≤ (message 0xfffffffe 65 65).ilen.toNat ∧
        (message 0xfffffffe 65 65).ictr.toNat + k ≤ 2 ^ 32 - 1) ∧
      (64 * 1 ≤ (message 0xfffffffe 64 64).ilen.toNat) ∧
      ∀ a, a < (message 0xfffffffe 65 65).ilen.toNat - 64 * 1 →
        Memory.read [] a = (message 0xfffffffe 65 65).inBuf.read (64 * 1 + a) :=
  ⟨⟨rfl, rfl, rfl, by decide⟩, by decide, by decide, fun _ _ => rfl⟩

theorem witness_PhasesRefineTheAtomicCommand :
    (message 0xfffffffe 65 65).seq.phase = .idle ∧ (message 0xfffffffe 65 65).ProcessReady ∧
      (message 0xffffffff 65 65).seq.phase = .idle ∧ ¬(message 0xffffffff 65 65).ProcessReady :=
  ⟨rfl, ⟨rfl, rfl, rfl, by decide⟩, rfl, fun h => absurd h.counterFits (by decide)⟩

theorem witness_PhaseStepsUntilIdle :
    (message 0xffffffff 64 64).ProcessReady ∧
      0 < 2 + 4 * (((message 0xffffffff 64 64).ilen.toNat + 63) / 64) ∧
      5 < 2 + 4 * (((message 0xffffffff 64 64).ilen.toNat + 63) / 64) ∧
      ¬(message 0 0 1).ProcessReady :=
  ⟨⟨rfl, rfl, rfl, by decide⟩, by decide, by decide, fun h => absurd h.sameLength (by decide)⟩

theorem witness_FailedCommandChangesOnlyErr :
    ∃ t : State, issue 0x03000000#32 State.reset = .next t ∧ t.err ≠ .ok :=
  ⟨_, rfl, by decide⟩

theorem witness_RegisterCommandsFrame :
    ∀ i ∈ [Instr.round 0 3 1 16, .qround 0 1 2 3, .dround, .init, .block, .wipe, .clrkey],
      (after (exec i { loaded (Vector.replicate 16 1) with klen := 32, nlen := 12 })).map (·.err)
          = some .ok ∧ i ≠ .ser ∧ i ≠ .enc ∧ i ≠ .dec := by
  decide +kernel

theorem witness_StoringCommandsFrame :
    ∀ i ∈ [Instr.ser, .enc, .dec],
      (after (exec i { message 5 64 64 with wmask := 0xFFFF#16 })).map (·.err) = some .ok := by
  decide +kernel

theorem witness_CommandsKeepTheHostsOperands :
    (∃ t, issue 0x0a000000#32 operands1 = .next t) ∧
      ∃ t, issue 0x09000000#32 operands1 = .next t ∧ decode 0x09000000#32 ≠ .command .clrkey :=
  ⟨⟨_, rfl⟩, ⟨_, rfl, by decide⟩⟩

theorem witness_WrittenMaskRule :
    (∃ t : State, exec .init declared = .next t ∧ t.err = .ok) ∧
      (∃ t : State, exec .init State.reset = .next t ∧ t.err ≠ .ok) ∧
      (∃ t, perform (.writeReg 0x7C 4 1) State.reset = .next t) ∧
      ∃ t, perform (.writeReg 0xC0 4 1) State.reset = .next t :=
  ⟨⟨_, rfl, rfl⟩, ⟨_, rfl, by decide⟩, ⟨_, rfl⟩, ⟨_, rfl⟩⟩

theorem witness_RepeatedCommandChangesNothing :
    (∀ i ∈ [Instr.init, .block, .ser, .enc, .dec, .wipe, .clrkey],
      (after (exec i { message 5 64 64 with wmask := 0xFFFF#16, outBuf := [(70, 3)] })).map (·.err)
        = some .ok) ∧
      Memory.wf [(70, 3)] = true := by
  decide +kernel

theorem witness_ResetValues :
    ({ operands1 with pending := [.reset] } : State).pending = .reset :: [] := by decide

theorem witness_ResetDuringACommand :
    ∀ c ∈ [0x07000000#32, 0x08000000#32, 0x06000000#32, 0x05000000#32, 0x00000000#32],
      (waiting (.commandThenReset c)).pending = .commandThenReset c :: [] :=
  fun _ _ => rfl

theorem witness_ResetDuringACommand_clauses :
    decode 0x07000000#32 = .command .enc ∧ decode 0x08000000#32 = .command .dec ∧
      decode 0x06000000#32 = .command .ser ∧
      decode 0x05000000#32 ≠ .command .enc ∧ decode 0x05000000#32 ≠ .command .dec ∧
      decode 0x05000000#32 ≠ .command .ser := by
  decide

/-- The ends of the ranges of reserved offsets: for HostRegisterWrites and ReservedOffsetsReadZero. -/
theorem witness_ReservedOffsetsReadZero :
    ∀ o ∈ [0x14, 0x28, 0x3C, 0x6C, 0x7C, 0xC0, 0xFC], o % 4 = 0 ∧
      (o = 0x14 ∨ (0x28 ≤ o ∧ o ≤ 0x3C) ∨ (0x6C ≤ o ∧ o ≤ 0x7C) ∨ (0xC0 ≤ o ∧ o ≤ 0xFC)) := by
  decide

theorem witness_SecretsDoNotReachTheHost :
    operands1.PublicEq { operands1 with key := Vector.replicate 32 0 } ∧
      operands1.key ≠ Vector.replicate 32 0 ∧
      (∃ u, perform (.readReg 0x40 4) operands1 = .next u) ∧
      (∀ n v, HostMove.readReg 0x40 4 ≠ .writeReg 0 n v) ∧
      (∀ c, HostMove.readReg 0x40 4 ≠ .commandThenReset c) ∧
      (∃ u, perform (.commandThenReset 0x07000000) operands1 = .next u) ∧
      operands1.abandonedRange 0x07000000 = 0 ∧ operands1.abandonedRange 0x06000000 = 64 :=
  ⟨⟨rfl, rfl, rfl, rfl, rfl, rfl, rfl, rfl, rfl, rfl, rfl, rfl, rfl, rfl, rfl⟩, by decide, ⟨_, rfl⟩,
    fun _ _ => HostMove.noConfusion, fun _ => HostMove.noConfusion, ⟨_, rfl⟩, by decide, by decide⟩

theorem witness_LoadDirectives :
    ∀ n ∈ [0, 11, 12, 13, 31, 32, 33], (List.replicate n (1 : Byte)).length < 2 ^ 32 := by
  decide

theorem witness_EnginesShareNothing :
    (∃ q, (Platform.reset 2).stepAt 1 = .next q) ∧ (Platform.reset 2).engines[1]? = some State.reset :=
  ⟨⟨_, rfl⟩, rfl⟩

theorem witness_ResetMeetsTheInvariant :
    ({ declared with inBuf := [(2, 1)], outBuf := [(0, 1), (0xffffffffffffffff, 2)] } :
      State).BuffersCanonical := by
  constructor <;> decide

/-- The invariant in a state after reset in which the host has written word 3 and a byte of each
buffer, with a WIPE pending. -/
theorem witness_StepKeepsTheInvariant :
    ∃ s t : State, s.Inv ∧ s.w[3] = 9 ∧ s.outBuf = [(1, 1)] ∧ step s = .next t :=
  ⟨{ State.reset with
      w := State.reset.w.set 3 9, wmask := 8#16, inBuf := [(0, 2)], outBuf := [(1, 1)]
      pending := [issueMove 0x09000000] },
    _, ⟨⟨rfl, rfl, rfl⟩, ⟨by decide, by decide⟩, by unfold State.UnwrittenZero; decide,
      ⟨by decide, by decide⟩⟩, rfl, rfl, rfl⟩

end Sys2Proof.Tests
end

section
/-! PROOFS. Rotation and little-endian assembly (00_scope.md, R12 and R13). -/

namespace Sys2Proof.Machine

/-! ### Rotation: a word is split at bit `32 - r`, and its two parts change places -/

/-- The upper part of a word split at bit `32 - r` has `r` bits. -/
theorem toNat_div_two_pow_lt (v : Word) {r : Nat} (hr : r ≤ 32) :
    v.toNat / 2 ^ (32 - r) < 2 ^ r := by
  apply Nat.div_lt_of_lt_mul
  rw [← pow_add, Nat.sub_add_cancel hr]
  exact v.isLt

/-- The bits R12 keeps of the shifted word are the lower part of the split, moved up by `r`. -/
theorem mul_two_pow_mod (n : Nat) {r : Nat} (hr : r ≤ 32) :
    n * 2 ^ r % 2 ^ 32 = 2 ^ r * (n % 2 ^ (32 - r)) := by
  calc n * 2 ^ r % 2 ^ 32
      = 2 ^ r * n % (2 ^ r * 2 ^ (32 - r)) := by
        rw [← pow_add, Nat.add_sub_cancel' hr, Nat.mul_comm]
    _ = 2 ^ r * (n % 2 ^ (32 - r)) := Nat.mul_mod_mul_left ..

/-- The two parts of R12 do not overlap, so their sum fits a word. -/
theorem toNat_rotl32_eq_parts (v : Word) {r : Nat} (hr : r ≤ 32) :
    (rotl32 v r).toNat = 2 ^ r * (v.toNat % 2 ^ (32 - r)) + v.toNat / 2 ^ (32 - r) := by
  have hhigh := toNat_div_two_pow_lt v hr
  have hlow : v.toNat % 2 ^ (32 - r) < 2 ^ (32 - r) := Nat.mod_lt _ (Nat.two_pow_pos _)
  have hsum : 2 ^ r * (v.toNat % 2 ^ (32 - r)) + v.toNat / 2 ^ (32 - r) < 2 ^ 32 :=
    calc 2 ^ r * (v.toNat % 2 ^ (32 - r)) + v.toNat / 2 ^ (32 - r)
        < 2 ^ r * (v.toNat % 2 ^ (32 - r) + 1) := by rw [Nat.mul_succ]; omega
      _ ≤ 2 ^ r * 2 ^ (32 - r) := Nat.mul_le_mul_left _ hlow
      _ = 2 ^ 32 := by rw [← pow_add, Nat.add_sub_cancel' hr]
  rw [rotl32, mul_two_pow_mod _ hr, BitVec.toNat_ofNat, Nat.mod_eq_of_lt hsum]

theorem toNat_rotl32 (v : Word) {r : Nat} (hr : r ≤ 32) :
    (rotl32 v r).toNat = v.toNat * 2 ^ r % 2 ^ 32 + v.toNat / 2 ^ (32 - r) := by
  rw [toNat_rotl32_eq_parts v hr, mul_two_pow_mod _ hr]

/-- Bit `j` of a rotated word: below `r` a bit of the upper part, else one of the lower part. -/
theorem getLsbD_rotl32 (v : Word) {r : Nat} (hr : r ≤ 32) (j : Nat) :
    (rotl32 v r).getLsbD j =
      if j < r then v.getLsbD (32 - r + j) else (decide (j < 32) && v.getLsbD (j - r)) := by
  have hhigh := toNat_div_two_pow_lt v hr
  rw [BitVec.getLsbD, toNat_rotl32_eq_parts v hr, Nat.testBit_two_pow_mul_add _ hhigh]
  split
  · rw [Nat.testBit_div_two_pow, Nat.add_comm, BitVec.getLsbD]
  · have hlt : j - r < 32 - r ↔ j < 32 := by omega
    simp only [Nat.testBit_mod_two_pow, hlt, BitVec.getLsbD]

/-- R12: bit `i` goes to bit `(i + r) mod 32`. -/
theorem getLsbD_rotl32_add_mod (v : Word) {r i : Nat} (hr : r < 32) (hi : i < 32) :
    (rotl32 v r).getLsbD ((i + r) % 32) = v.getLsbD i := by
  rw [getLsbD_rotl32 v hr.le]
  by_cases hwrap : i + r < 32
  · have hj : (i + r) % 32 = i + r := Nat.mod_eq_of_lt hwrap
    simp [hj, hwrap]
  · have hj : (i + r) % 32 = i + r - 32 := by omega
    have hlow : i + r - 32 < r := by omega
    have hback : 32 - r + (i + r - 32) = i := by omega
    rw [hj, if_pos hlow, hback]

@[simp] theorem rotl32_zero (v : Word) : rotl32 v 0 = v := by
  apply BitVec.eq_of_toNat_eq
  have hv := v.isLt
  rw [toNat_rotl32_eq_parts v (Nat.zero_le _)]
  omega

/-! ### Little-endian assembly -/

/-- R13: byte `k` of an assembled word is the byte at index `k`. -/
theorem byteOf_le32 (b0 b1 b2 b3 : Byte) :
    byteOf (le32 b0 b1 b2 b3) 0 = b0 ∧ byteOf (le32 b0 b1 b2 b3) 1 = b1 ∧
      byteOf (le32 b0 b1 b2 b3) 2 = b2 ∧ byteOf (le32 b0 b1 b2 b3) 3 = b3 := by
  have h0 := b0.isLt
  have h1 := b1.isLt
  have h2 := b2.isLt
  have h3 := b3.isLt
  refine ⟨?_, ?_, ?_, ?_⟩ <;>
    (apply BitVec.eq_of_toNat_eq; rw [toNat_byteOf, toNat_le32]; omega)

theorem le32_byteOf (v : Word) : le32 (byteOf v 0) (byteOf v 1) (byteOf v 2) (byteOf v 3) = v := by
  apply BitVec.eq_of_toNat_eq
  have hv := v.isLt
  simp only [toNat_le32, toNat_byteOf]
  omega

/-! ### The statements -/

/-- Settles O1: the word is split at bit `32 - r` and the two parts change places. -/
theorem rotateMovesEveryBit : Obligations.RotateMovesEveryBit := by
  intro v r i
  exact ⟨toNat_rotl32 v r.isLt.le, getLsbD_rotl32_add_mod v r.isLt i.isLt, rotl32_zero v⟩

/-- Settles O2: both directions of the assembly, read as numbers. -/
theorem littleEndianAssemblyAndItsInverse : Obligations.LittleEndianAssemblyAndItsInverse :=
  ⟨fun b0 b1 b2 b3 => ⟨toNat_le32 b0 b1 b2 b3, byteOf_le32 b0 b1 b2 b3⟩, le32_byteOf⟩

end Sys2Proof.Machine
end

section
/-! PROOFS. What a command can end in, as an inductive relation with one case per command, and the
frame of each command (10_state.md, R42). -/

namespace Sys2Proof.Machine

/-- The states a command can end in: the old one with an error recorded, or the
command's own effect.
`exec_executed` ties it to `exec`. -/
inductive Executed : Instr → State → State → Prop
  | raised {i : Instr} {s : State} (e : ErrCode) (he : e ≠ .ok) : Executed i s (s.raise e)
  | round (x y z : Fin 16) (r : Fin 32) {s : State} (hfull : s.wmask = wmaskFull) :
      Executed (.round x y z r) s { s with w := roundStep s.w x y z r.val, err := .ok }
  | qround (a b c d : Fin 16) {s : State} (hfull : s.wmask = wmaskFull) :
      Executed (.qround a b c d) s { s with w := quarterRound s.w a b c d, err := .ok }
  | dround {s : State} (hfull : s.wmask = wmaskFull) :
      Executed .dround s { s with w := doubleRound s.w, err := .ok }
  | init {s : State} : Executed .init s (s.initMatrix s.ictr).complete
  | block {s : State} : Executed .block s (s.generate s.ictr).complete
  | ser {s : State} : Executed .ser s (s.memWriteList 0 (serBytes s.w).toList).complete
  | enc {s : State} (hcheck : s.processCheck = none) : Executed .enc s s.process
  | dec {s : State} (hcheck : s.processCheck = none) : Executed .dec s s.process
  | wipe {s : State} : Executed .wipe s s.wipeScratch.complete
  | clrkey {s : State} :
      Executed .clrkey s { s with key := Vector.replicate 32 0, klen := 0 }.complete

/-- `exec_cases`, with a name for each case. -/
theorem exec_executed {i : Instr} {s t : State} (h : exec i s = .next t) : Executed i s t := by
  rcases exec_cases i s with ⟨e, he, hx⟩ | ⟨m, hfull, hx, hmix⟩ | ⟨rfl, -, hx⟩ | ⟨rfl, -, hx⟩ |
      ⟨rfl, -, -, hx⟩ | ⟨hi, hcheck, hx⟩ | ⟨rfl, hx⟩ | ⟨rfl, hx⟩ <;>
    obtain rfl := Host.Outcome.next.inj (hx.symm.trans h)
  · exact .raised e he
  · rcases hmix with ⟨x, y, z, r, rfl, rfl⟩ | ⟨a, b, c, d, rfl, rfl⟩ | ⟨rfl, rfl⟩
    · exact .round x y z r hfull
    · exact .qround a b c d hfull
    · exact .dround hfull
  · exact .init
  · exact .block
  · exact .ser
  · rcases hi with rfl | rfl
    · exact .enc hcheck
    · exact .dec hcheck
  · exact .wipe
  · exact .clrkey

/-- R34, R95, R207: a word written to CMD runs the command it decodes to, or records that it is
none. -/
theorem issue_cases {c : Word} {s t : State} (h : issue c s = .next t) :
    (∃ i, decode c = .command i ∧ Executed i s t) ∨ t = s.raise .illegalCommand := by
  unfold issue at h
  split at h
  · exact .inl ⟨_, ‹_›, exec_executed h⟩
  · exact .inr (Host.Outcome.next.inj h).symm

/-! ### Frames (R42) -/

/-- R150: SER changes OUT and ERR, and of OUT the addresses `0 .. 63`. -/
theorem Executed.ser_frame {s t : State} (h : Executed .ser s t) :
    t = { s with outBuf := t.outBuf, err := t.err } ∧
      ∀ x, 64 ≤ x → t.outBuf.read x = s.outBuf.read x := by
  cases h with
  | raised e => exact ⟨rfl, fun _ _ => rfl⟩
  | ser =>
    refine ⟨by rw [State.memWriteList_eq]; rfl, fun x hx => ?_⟩
    have hlen : (serBytes s.w).toList.length = 64 := Vector.length_toList
    rw [State.outBuf_complete, State.memWriteList_read _ _ _ (by omega), if_neg (by omega)]

/-- R160: ENC and DEC change what the table of R42 lists, and of OUT the addresses below ILEN. -/
theorem Executed.process_frame {i : Instr} {s t : State} (h : Executed i s t)
    (hi : i = .enc ∨ i = .dec) :
    t = { s with
          w := t.w, wmask := t.wmask, snap := t.snap, ks := t.ks, seq := t.seq,
          outBuf := t.outBuf, err := t.err } ∧
      ∀ x, s.ilen.toNat ≤ x → t.outBuf.read x = s.outBuf.read x := by
  cases h with
  | raised e => exact ⟨rfl, fun _ _ => rfl⟩
  | enc hcheck | dec hcheck =>
    refine ⟨by rw [State.process_of_ok s hcheck], fun x hx => ?_⟩
    rw [State.process_read s hcheck, if_neg (by omega)]
  | _ => simp at hi

/-- R25 to R31, R36: the host's operands and IN after a command. -/
theorem Executed.keeps_operands {i : Instr} {s t : State} (h : Executed i s t) :
    t.nonce = s.nonce ∧ t.nlen = s.nlen ∧ t.ictr = s.ictr ∧ t.ilen = s.ilen ∧ t.olen = s.olen ∧
      t.inBuf = s.inBuf ∧ (i ≠ .clrkey → t.key = s.key ∧ t.klen = s.klen) := by
  cases h with
  | ser =>
    rw [Executed.ser.ser_frame.1]
    exact ⟨rfl, rfl, rfl, rfl, rfl, rfl, fun _ => ⟨rfl, rfl⟩⟩
  | enc hcheck | dec hcheck =>
    rw [State.process_of_ok s hcheck]
    exact ⟨rfl, rfl, rfl, rfl, rfl, rfl, fun _ => ⟨rfl, rfl⟩⟩
  | clrkey => exact ⟨rfl, rfl, rfl, rfl, rfl, rfl, fun hne => absurd rfl hne⟩
  | _ => exact ⟨rfl, rfl, rfl, rfl, rfl, rfl, fun _ => ⟨rfl, rfl⟩⟩

/-- R42: only SER, ENC and DEC store to OUT. -/
theorem Executed.keeps_outBuf {i : Instr} {s t : State} (h : Executed i s t) (hser : i ≠ .ser)
    (henc : i ≠ .enc) (hdec : i ≠ .dec) : t.outBuf = s.outBuf := by
  cases h with
  | ser => exact absurd rfl hser
  | enc => exact absurd rfl henc
  | dec => exact absurd rfl hdec
  | _ => rfl

/-- R160, R164, R170: a byte below ILEN stands in a chunk. -/
theorem exists_chunkAddr_eq {len : Nat} {a : Addr} (h : a.toNat < len) :
    ∃ k j, k < chunkCount len ∧ j < chunkLen len k ∧ chunkAddr k j = a := by
  refine ⟨a.toNat / 64, a.toNat % 64, ?_, ?_, ?_⟩
  · unfold chunkCount
    omega
  · unfold chunkLen
    omega
  · rw [chunkAddr, Nat.div_add_mod, BitVec.ofNat_toNat, BitVec.setWidth_eq]

/-! ### The statements -/

/-- Settles O40: per command, the fields its effect names. -/
theorem registerCommandsFrame : Obligations.RegisterCommandsFrame := by
  intro i s t h hser henc hdec
  have hx := exec_executed h
  obtain ⟨-, -, -, -, -, hin, -⟩ := hx.keeps_operands
  have hout := hx.keeps_outBuf hser henc hdec
  refine ⟨fun a => by rw [hin], fun a => by rw [hout], ?_, ?_, ?_, ?_, ?_⟩
  · rintro (⟨x, y, z, r, rfl⟩ | ⟨a, b, c, d, rfl⟩ | rfl) <;> cases hx <;> rfl
  all_goals
    rintro rfl
    cases hx <;> rfl

/-- Settles O41: an address no byte is stored to lies past the command's range. -/
theorem storingCommandsFrame : Obligations.StoringCommandsFrame := by
  intro i s t h _
  have hx := exec_executed h
  obtain ⟨-, -, -, -, -, hin, -⟩ := hx.keeps_operands
  refine ⟨fun a => by rw [hin], ?_, fun hi => ?_⟩
  · rintro rfl
    obtain ⟨hframe, hout⟩ := hx.ser_frame
    refine ⟨hframe, fun a ha => hout a.toNat (Nat.le_of_not_lt fun hlt => ?_)⟩
    exact ha ⟨a.toNat, hlt⟩ (BitVec.eq_of_toNat_eq (toNat_addr a.isLt))
  · obtain ⟨hframe, hout⟩ := hx.process_frame hi
    refine ⟨hframe, fun a ha => hout a.toNat (Nat.le_of_not_lt fun hlt => ?_)⟩
    obtain ⟨k, j, hk, hj, hkj⟩ := exists_chunkAddr_eq hlt
    exact ha k j hk hj hkj

/-- Settles O42: an illegal word writes ERR only, and no command writes these but CLRKEY. -/
theorem commandsKeepTheHostsOperands : Obligations.CommandsKeepTheHostsOperands := by
  intro c s t h
  rcases issue_cases h with ⟨i, hi, hx⟩ | rfl
  · obtain ⟨hnonce, hnlen, hictr, hilen, holen, hin, hkey⟩ := hx.keeps_operands
    refine ⟨hnonce, hnlen, hictr, hilen, holen, fun a => by rw [hin], fun hc => hkey ?_⟩
    rintro rfl
    exact hc hi
  · exact ⟨rfl, rfl, rfl, rfl, rfl, fun _ => rfl, fun _ => ⟨rfl, rfl⟩⟩

end Sys2Proof.Machine
end

section
/-! PROOFS. The register map as the host meets it: which register an offset names, what a write
and a read of a named register do, the halves of a length register (10_state.md, R38, R39, R45). -/

namespace Sys2Proof.Machine

/-! ### Offsets and names (R38, R39) -/

@[simp] theorem regAt_offset (r : RegName) : regAt r.offset = some r := by
  cases r with
  | keyw j => fin_cases j <;> rfl
  | noncew j => fin_cases j <;> rfl
  | w i => fin_cases i <;> rfl
  | _ => rfl

@[simp] theorem busServes_offset (r : RegName) : busServes r.offset 4 = true := by
  cases r with
  | keyw j => fin_cases j <;> rfl
  | noncew j => fin_cases j <;> rfl
  | w i => fin_cases i <;> rfl
  | _ => rfl

theorem busServes_iff (offset width : Nat) :
    busServes offset width = true ↔ width = 4 ∧ offset % 4 = 0 ∧ offset < 256 := by
  simp only [busServes, Bool.and_eq_true, decide_eq_true_eq, and_assoc]
  rfl

/-- At a multiple of 4 the register found is the one whose offset it is. -/
theorem offset_of_regAt {offset : Nat} {r : RegName} (h4 : offset % 4 = 0)
    (h : regAt offset = some r) : r.offset = offset := by
  unfold regAt at h
  split at h
  case h_10 =>
    split_ifs at h
    all_goals
      obtain rfl := Option.some.inj h
      simp only [RegName.offset, Fin.val_ofNat]
      omega
  all_goals
    obtain rfl := Option.some.inj h
    rfl

/-- R39: the reserved offsets of the register space. -/
def ReservedOffset (offset : Nat) : Prop :=
  offset = 0x14 ∨ (0x28 ≤ offset ∧ offset ≤ 0x3C) ∨ (0x6C ≤ offset ∧ offset ≤ 0x7C) ∨
    (0xC0 ≤ offset ∧ offset ≤ 0xFC)

/-- No named register stands at a reserved offset. -/
theorem regAt_of_reserved {offset : Nat} (h4 : offset % 4 = 0) (h : ReservedOffset offset) :
    regAt offset = none := by
  cases hr : regAt offset with
  | none => rfl
  | some r =>
    have ho := offset_of_regAt h4 hr
    unfold ReservedOffset at h
    cases r <;> simp only [RegName.offset] at ho <;> omega

theorem busServes_of_reserved {offset : Nat} (h4 : offset % 4 = 0) (h : ReservedOffset offset) :
    busServes offset 4 = true := by
  unfold ReservedOffset at h
  exact (busServes_iff offset 4).mpr ⟨rfl, h4, by omega⟩

/-! A host write of a register writes an operand register, or a word of W with its bit of WMASK
(R45). -/

@[simp] theorem State.snap_writeReg (s : State) (r : RegName) (v : Word) :
    (s.writeReg r v).snap = s.snap := by
  cases r <;> simp only [State.writeReg]
@[simp] theorem State.ks_writeReg (s : State) (r : RegName) (v : Word) :
    (s.writeReg r v).ks = s.ks := by
  cases r <;> simp only [State.writeReg]
@[simp] theorem State.err_writeReg (s : State) (r : RegName) (v : Word) :
    (s.writeReg r v).err = s.err := by
  cases r <;> simp only [State.writeReg]
@[simp] theorem State.seq_writeReg (s : State) (r : RegName) (v : Word) :
    (s.writeReg r v).seq = s.seq := by
  cases r <;> simp only [State.writeReg]
@[simp] theorem State.inBuf_writeReg (s : State) (r : RegName) (v : Word) :
    (s.writeReg r v).inBuf = s.inBuf := by
  cases r <;> simp only [State.writeReg]
@[simp] theorem State.outBuf_writeReg (s : State) (r : RegName) (v : Word) :
    (s.writeReg r v).outBuf = s.outBuf := by
  cases r <;> simp only [State.writeReg]
@[simp] theorem State.pending_writeReg (s : State) (r : RegName) (v : Word) :
    (s.writeReg r v).pending = s.pending := by
  cases r <;> simp only [State.writeReg]
@[simp] theorem State.reply_writeReg (s : State) (r : RegName) (v : Word) :
    (s.writeReg r v).reply = s.reply := by
  cases r <;> simp only [State.writeReg]
@[simp] theorem State.freeNext_writeReg (s : State) (r : RegName) (v : Word) :
    (s.writeReg r v).freeNext = s.freeNext := by
  cases r <;> simp only [State.writeReg]

theorem State.w_writeReg_of_ne {r : RegName} (s : State) (v : Word) (h : ∀ i, r ≠ .w i) :
    (s.writeReg r v).w = s.w := by
  cases r with
  | w i => exact absurd rfl (h i)
  | _ => simp only [State.writeReg]

theorem State.wmask_writeReg_of_ne {r : RegName} (s : State) (v : Word) (h : ∀ i, r ≠ .w i) :
    (s.writeReg r v).wmask = s.wmask := by
  cases r with
  | w i => exact absurd rfl (h i)
  | _ => simp only [State.writeReg]

/-! ### Accesses of the register space (R34, R39, R45, R65) -/

/-- R45: a write of a register other than CMD. -/
theorem perform_writeReg_named (s : State) {r : RegName} (v : Word) (h : r ≠ .cmd) :
    perform (.writeReg r.offset 4 v) s = .next (s.writeReg r v) := by
  rw [perform, if_pos (busServes_offset r), writeOffset, regAt_offset]
  cases r with
  | cmd => exact absurd rfl h
  | _ => rfl

/-- R34: a write of CMD issues the word. -/
theorem perform_writeReg_cmd (s : State) (c : Word) : perform (.writeReg 0 4 c) s = issue c s := rfl

theorem perform_readReg_named (s : State) (r : RegName) :
    perform (.readReg r.offset 4) s = .next { s with reply := .word (s.readReg r) } := by
  rw [perform, if_pos (busServes_offset r), State.readOffset, regAt_offset]

theorem perform_writeReg_reserved (s : State) {offset : Nat} (v : Word) (h4 : offset % 4 = 0)
    (h : ReservedOffset offset) : perform (.writeReg offset 4 v) s = .next s := by
  rw [perform, if_pos (busServes_of_reserved h4 h), writeOffset, regAt_of_reserved h4 h]

theorem perform_readReg_reserved (s : State) {offset : Nat} (h4 : offset % 4 = 0)
    (h : ReservedOffset offset) :
    perform (.readReg offset 4) s = .next { s with reply := .word 0 } := by
  rw [perform, if_pos (busServes_of_reserved h4 h), State.readOffset, regAt_of_reserved h4 h]

/-- All a register write can be, whatever the state: a command issued, a named register written,
nothing, or an access the bus refuses. -/
theorem perform_writeReg_cases (offset width : Nat) (v : Word) :
    (offset = 0 ∧ width = 4 ∧ ∀ s, perform (.writeReg offset width v) s = issue v s) ∨
    (∃ r, r ≠ RegName.cmd ∧ offset = r.offset ∧
      ∀ s, perform (.writeReg offset width v) s = .next (s.writeReg r v)) ∨
    (∀ s, perform (.writeReg offset width v) s = .next s) ∨
    ∀ s, perform (.writeReg offset width v) s = .refused .busAccess := by
  by_cases hb : busServes offset width = true
  · obtain ⟨rfl, h4, -⟩ := (busServes_iff offset width).mp hb
    cases hr : regAt offset with
    | none =>
      exact .inr (.inr (.inl fun s => by rw [perform, if_pos hb, writeOffset, hr]))
    | some r =>
      obtain rfl := offset_of_regAt h4 hr
      by_cases hc : r = .cmd
      · subst hc
        exact .inl ⟨rfl, rfl, fun s => perform_writeReg_cmd s v⟩
      · exact .inr (.inl ⟨r, hc, rfl, fun s => perform_writeReg_named s v hc⟩)
  · exact .inr (.inr (.inr fun s => by rw [perform, if_neg hb]))

/-- R220: the accesses of the host by what they can do. A register write is left to
`perform_writeReg_cases`; a read changes nothing but the host's answer. -/
theorem perform_cases {m : HostMove} {s t : State} (h : perform m s = .next t) :
    (∃ offset width v, m = .writeReg offset width v) ∨
    (∃ p, t = { s with reply := p }) ∨
    (∃ a b, m = .writeIn a b ∧ t = { s with inBuf := s.inBuf.write a.toNat b }) ∨
    (∃ a b, m = .writeOut a b ∧ t = { s with outBuf := s.outBuf.write a.toNat b }) ∨
    (m = .reset ∧ t = s.engineReset) ∨
    ∃ c, m = .commandThenReset c ∧ t = s.abandon c := by
  cases m with
  | writeReg offset width v => exact .inl ⟨offset, width, v, rfl⟩
  | readReg offset width =>
    rw [perform] at h
    split_ifs at h
    exact .inr (.inl ⟨_, (Host.Outcome.next.inj h).symm⟩)
  | readIn a => exact .inr (.inl ⟨_, (Host.Outcome.next.inj h).symm⟩)
  | readOut a => exact .inr (.inl ⟨_, (Host.Outcome.next.inj h).symm⟩)
  | writeIn a b => exact .inr (.inr (.inl ⟨a, b, rfl, (Host.Outcome.next.inj h).symm⟩))
  | writeOut a b => exact .inr (.inr (.inr (.inl ⟨a, b, rfl, (Host.Outcome.next.inj h).symm⟩)))
  | reset => exact .inr (.inr (.inr (.inr (.inl ⟨rfl, (Host.Outcome.next.inj h).symm⟩))))
  | commandThenReset c =>
    exact .inr (.inr (.inr (.inr (.inr ⟨c, rfl, (Host.Outcome.next.inj h).symm⟩))))

/-! ### Halves of a length register (R30, R31) -/

theorem toNat_append_eq_add {m n : Nat} (x : BitVec m) (y : BitVec n) :
    (x ++ y).toNat = x.toNat * 2 ^ n + y.toNat := by
  rw [BitVec.toNat_append, ← Nat.shiftLeft_add_eq_or_of_lt y.isLt, Nat.shiftLeft_eq]

theorem toNat_lowHalf (v : BitVec 64) : (lowHalf v).toNat = slice v 31 0 := by
  have := v.isLt
  simp [lowHalf, slice]

theorem toNat_highHalf (v : BitVec 64) : (highHalf v).toNat = slice v 63 32 := by
  simp [highHalf, slice]

theorem slice_append_low (x y : Word) : slice (x ++ y) 31 0 = y.toNat := by
  have := y.isLt
  rw [slice, toNat_append_eq_add]
  omega

theorem slice_append_high (x y : Word) : slice (x ++ y) 63 32 = x.toNat := by
  have hx := x.isLt
  have hy := y.isLt
  rw [slice, toNat_append_eq_add]
  omega

@[simp] theorem lowHalf_setLowHalf (v : BitVec 64) (x : Word) : lowHalf (setLowHalf v x) = x :=
  BitVec.eq_of_toNat_eq (by rw [toNat_lowHalf, setLowHalf, slice_append_low])

@[simp] theorem highHalf_setHighHalf (v : BitVec 64) (x : Word) : highHalf (setHighHalf v x) = x :=
  BitVec.eq_of_toNat_eq (by rw [toNat_highHalf, setHighHalf, slice_append_high])

/-- A write of the low half puts the word there and leaves the high half. -/
theorem slice_setLowHalf (v : BitVec 64) (x : Word) :
    slice (setLowHalf v x) 31 0 = x.toNat ∧ slice (setLowHalf v x) 63 32 = slice v 63 32 := by
  rw [setLowHalf, slice_append_low, slice_append_high, toNat_highHalf]
  exact ⟨rfl, rfl⟩

/-- A write of the high half puts the word there and leaves the low half. -/
theorem slice_setHighHalf (v : BitVec 64) (x : Word) :
    slice (setHighHalf v x) 63 32 = x.toNat ∧ slice (setHighHalf v x) 31 0 = slice v 31 0 := by
  rw [setHighHalf, slice_append_low, slice_append_high, toNat_lowHalf]
  exact ⟨rfl, rfl⟩

/-! ### Words of KEY and NONCE, bits of WMASK -/

/-- R60, R61: word `j` of a byte register that has it, written out. -/
theorem wordOfBytes_eq_le32 {n : Nat} (bytes : Vector Byte n) {j : Nat} (h : 4 * j + 3 < n) :
    wordOfBytes bytes j =
      le32 bytes[4 * j] bytes[4 * j + 1] bytes[4 * j + 2] bytes[4 * j + 3] := by
  rw [wordOfBytes, byteAt_of_lt _ (by omega), byteAt_of_lt _ (by omega), byteAt_of_lt _ (by omega),
    byteAt_of_lt _ h]

/-- R22: a write of `Wi` sets bit `i` and no other. -/
theorem getLsbD_maskWritten (mask : BitVec 16) (i k : Fin 16) :
    (maskWritten mask i).getLsbD k.val = (decide (k = i) || mask.getLsbD k.val) := by
  have hbit : (1#16 <<< i.val).getLsbD k.val = decide (k = i) := by
    have hk := k.isLt
    simp only [BitVec.getLsbD_shiftLeft, BitVec.getLsbD_one, Fin.ext_iff]
    grind
  rw [maskWritten, BitVec.getLsbD_or, hbit, Bool.or_comm]

/-- R22: under a full mask every bit is set. -/
theorem getLsbD_wmaskFull (i : Fin 16) : wmaskFull.getLsbD i.val = true := by
  revert i
  decide

end Sys2Proof.Machine
end

section
/-! PROOFS. The invariant of an engine between accesses: it holds after reset, and every command and
every other access keeps it (10_state.md, R23, R24, R35, R45). -/

namespace Sys2Proof.Machine

/-! ### Parts of the invariant -/

/-- A change of W, WMASK or the buffers only: the parts about these are left to show. -/
theorem State.Inv.of_quiet_eq {s t : State} (h : s.Inv) (hsnap : t.snap = s.snap)
    (hks : t.ks = s.ks) (hseq : t.seq = s.seq) (hw : t.UnwrittenZero)
    (hbuf : t.BuffersCanonical) : t.Inv := by
  obtain ⟨⟨hs, hk, hidle⟩, ⟨hi, hn⟩, -, -⟩ := h
  exact ⟨⟨hsnap ▸ hs, hks ▸ hk, hseq ▸ hidle⟩, ⟨hseq ▸ hi, hseq ▸ hn⟩, hw, hbuf⟩

/-- The invariant speaks of W, WMASK, S, KS, SEQ, IN and OUT only. -/
theorem State.Inv.of_eq {s t : State} (h : s.Inv) (hw : t.w = s.w) (hmask : t.wmask = s.wmask)
    (hsnap : t.snap = s.snap) (hks : t.ks = s.ks) (hseq : t.seq = s.seq)
    (hin : t.inBuf = s.inBuf) (hout : t.outBuf = s.outBuf) : t.Inv := by
  refine h.of_quiet_eq hsnap hks hseq ?_ ⟨hin ▸ h.buffers.1, hout ▸ h.buffers.2⟩
  unfold State.UnwrittenZero
  rw [hw, hmask]
  exact h.unwrittenZero

/-- R45 says nothing of a matrix whose words are all written. -/
theorem State.unwrittenZero_of_full {s : State} (h : s.wmask = wmaskFull) : s.UnwrittenZero := by
  intro i hi
  rw [h, getLsbD_wmaskFull] at hi
  cases hi

theorem State.unwrittenZero_of_zero {s : State} (h : s.w = Vector.replicate 16 0) :
    s.UnwrittenZero := by
  intro i _
  rw [h, Vector.getElem_replicate]

/-- R22, R45: a host write of `Wi` sets the bit of the word it writes. -/
theorem State.UnwrittenZero.writeReg_w {s : State} (h : s.UnwrittenZero) (i : Fin 16) (v : Word) :
    (s.writeReg (.w i) v).UnwrittenZero := by
  intro k hk
  have hbit : (maskWritten s.wmask i).getLsbD k.val = false := hk
  rw [getLsbD_maskWritten, Bool.or_eq_false_iff, decide_eq_false_iff_not] at hbit
  obtain ⟨hne, hclear⟩ := hbit
  have hval : i.val ≠ k.val := fun e => hne (Fin.ext e.symm)
  calc (s.w.set i.val v)[k.val] = s.w[k.val] := Vector.getElem_set_ne i.isLt k.isLt hval
    _ = 0 := h k hclear

/-- R165 bounds the chunk count of ENC and DEC well below the range of SEQ (R35). -/
theorem State.chunkCount_le_of_check {s : State} (h : s.processCheck = none) :
    chunkCount s.ilen.toNat ≤ 2 ^ 32 := by
  rcases Nat.eq_zero_or_pos (chunkCount s.ilen.toNat) with hn | hn
  · omega
  · have hlast := s.chunk_counter_lt h (Nat.sub_lt hn Nat.one_pos)
    unfold chunkCounter at hlast
    omega

/-! ### Commands -/

/-- R160: a successful ENC or DEC wipes the scratch and leaves SEQ idle at the chunk count. -/
theorem State.Inv.process {s : State} (h : s.Inv) (hc : s.processCheck = none) :
    s.process.Inv := by
  have hn := State.chunkCount_le_of_check hc
  rw [State.process_of_ok s hc]
  exact ⟨⟨rfl, rfl, rfl⟩, ⟨by simp only; omega, by simp only; omega⟩,
    State.unwrittenZero_of_zero rfl, h.buffers.1, s.processChunks_wf _ h.buffers.2⟩

theorem Executed.keeps_inv {i : Instr} {s t : State} (hx : Executed i s t) (h : s.Inv) :
    t.Inv := by
  cases hx with
  | raised | clrkey => exact h.of_eq rfl rfl rfl rfl rfl rfl rfl
  | round _ _ _ _ hfull | qround _ _ _ _ hfull | dround hfull =>
    exact h.of_quiet_eq rfl rfl rfl (State.unwrittenZero_of_full hfull) h.buffers
  | init => exact h.of_quiet_eq rfl rfl rfl (State.unwrittenZero_of_full rfl) h.buffers
  | block =>
    exact h.of_quiet_eq h.quiet.snapZero.symm rfl rfl (State.unwrittenZero_of_full rfl) h.buffers
  | ser =>
    have hwf := s.memWriteList_wf 0 (serBytes s.w).toList h.buffers.2
    rw [State.memWriteList_eq]
    exact h.of_quiet_eq rfl rfl rfl h.unwrittenZero ⟨h.buffers.1, hwf⟩
  | enc hcheck | dec hcheck => exact h.process hcheck
  | wipe =>
    exact h.of_quiet_eq h.quiet.snapZero.symm h.quiet.ksZero.symm rfl
      (State.unwrittenZero_of_zero rfl) h.buffers

theorem issue_keeps_inv {c : Word} {s t : State} (h : s.Inv) (hi : issue c s = .next t) :
    t.Inv := by
  rcases issue_cases hi with ⟨i, -, hx⟩ | rfl
  · exact hx.keeps_inv h
  · exact h.of_eq rfl rfl rfl rfl rfl rfl rfl

/-! ### The other accesses -/

/-- R40, R230: the invariant after reset needs canonical buffers only. -/
theorem State.engineReset_inv {s : State} (h : s.BuffersCanonical) : s.engineReset.Inv :=
  ⟨⟨rfl, rfl, rfl⟩, ⟨Nat.two_pow_pos 58, Nat.zero_le _⟩, State.unwrittenZero_of_zero rfl, h⟩

/-- R231: free bytes stored below `2^64` keep OUT canonical. -/
theorem State.abandon_inv {s : State} (c : Word) (h : s.BuffersCanonical) : (s.abandon c).Inv := by
  have hreset := State.engineReset_inv h
  rw [State.abandon_eq]
  exact ⟨⟨rfl, rfl, rfl⟩, hreset.seqInRange, hreset.unwrittenZero, h.1, s.fillFree_wf _ _ h.2⟩

/-- R45: of the registers the host writes, only `Wi` is one the invariant speaks of. -/
theorem State.Inv.writeReg {s : State} (h : s.Inv) (r : RegName) (v : Word) :
    (s.writeReg r v).Inv := by
  cases r with
  | w i =>
    exact h.of_quiet_eq rfl rfl rfl (h.unwrittenZero.writeReg_w i v) h.buffers
  | _ =>
    exact h.of_eq (s.w_writeReg_of_ne v nofun) (s.wmask_writeReg_of_ne v nofun)
      (s.snap_writeReg _ v) (s.ks_writeReg _ v) (s.seq_writeReg _ v) (s.inBuf_writeReg _ v)
      (s.outBuf_writeReg _ v)

theorem perform_keeps_inv {m : HostMove} {s t : State} (h : s.Inv) (hp : perform m s = .next t) :
    t.Inv := by
  rcases perform_cases hp with ⟨o, n, v, rfl⟩ | ⟨p, rfl⟩ | ⟨a, b, -, rfl⟩ | ⟨a, b, -, rfl⟩ |
    ⟨-, rfl⟩ | ⟨c, -, rfl⟩
  · rcases perform_writeReg_cases o n v with ⟨-, -, hx⟩ | ⟨r, -, -, hx⟩ | hx | hx <;>
      rw [hx s] at hp
    · exact issue_keeps_inv h hp
    · exact Host.Outcome.next.inj hp ▸ h.writeReg r v
    · exact Host.Outcome.next.inj hp ▸ h
    · cases hp
  · exact h.of_eq rfl rfl rfl rfl rfl rfl rfl
  · exact h.of_quiet_eq rfl rfl rfl h.unwrittenZero
      ⟨Memory.write_wf h.buffers.1 a.isLt b, h.buffers.2⟩
  · exact h.of_quiet_eq rfl rfl rfl h.unwrittenZero
      ⟨h.buffers.1, Memory.write_wf h.buffers.2 a.isLt b⟩
  · exact State.engineReset_inv h.buffers
  · exact State.abandon_inv c h.buffers

/-! ### The statements -/

/-- Settles O57: every part of the invariant that is not about the buffers is a value of R40. -/
theorem resetMeetsTheInvariant : Obligations.ResetMeetsTheInvariant :=
  ⟨State.engineReset_inv (s := State.reset) ⟨rfl, rfl⟩, fun _ => State.engineReset_inv⟩

/-- Settles O58: a step is idle or serves one access, and every access keeps the invariant. -/
theorem stepKeepsTheInvariant : Obligations.StepKeepsTheInvariant := by
  intro s t h hs
  rcases step_cases s with ⟨-, hx⟩ | ⟨m, rest, -, hx⟩ <;> rw [hx] at hs
  · exact Host.Outcome.next.inj hs ▸ h
  · have hserving : (s.serving rest).Inv := h.of_eq rfl rfl rfl rfl rfl rfl rfl
    exact perform_keeps_inv hserving hs

end Sys2Proof.Machine
end

section
/-! PROOFS. What the host sees of an engine: registers read and written, STATUS, WMASK, the buffers,
a command issued through CMD, the registers after reset (10_state.md, R22, R33 to R40, R45). -/

namespace Sys2Proof.Machine

/-! ### Writing and reading registers (R39, R45) -/

/-- R33: STATUS as a number, from its fields. -/
theorem State.toNat_status (s : State) :
    s.status.toNat
      = s.wmask.toNat * 2 ^ 16 + s.wvalid.toNat * 2 ^ 4 + s.err.code.toNat := by
  rw [State.status, toNat_append_eq_add, toNat_append_eq_add, toNat_append_eq_add,
    BitVec.toNat_ofBool, BitVec.toNat_ofNat]
  omega

theorem State.status_reset : State.reset.status = 0 := by decide

/-- Settles O48: every register by its name, the length registers half by half. -/
theorem hostRegisterWrites : Obligations.HostRegisterWrites := by
  intro s v
  refine ⟨rfl, rfl, rfl, rfl, ⟨_, rfl, slice_setLowHalf s.ilen v⟩,
    ⟨_, rfl, slice_setHighHalf s.ilen v⟩, ⟨_, rfl, slice_setLowHalf s.olen v⟩,
    ⟨_, rfl, slice_setHighHalf s.olen v⟩, fun j => ?_, fun j => ?_, fun i => ?_, ?_⟩
  · refine ⟨setWordOfBytes s.key j.val v, perform_writeReg_named s (r := .keyw j) v nofun,
      fun b => getElem_setWordOfBytes_same s.key j.val v b _,
      fun a ha => getElem_setWordOfBytes_ne s.key j.val v a.isLt ha, ?_⟩
    rw [← wordOfBytes_eq_le32, wordOfBytes_setWordOfBytes _ _ _ (by omega)]
  · exact ⟨setWordOfBytes s.nonce j.val v, perform_writeReg_named s (r := .noncew j) v nofun,
      fun b => getElem_setWordOfBytes_same s.nonce j.val v b _,
      fun a ha => getElem_setWordOfBytes_ne s.nonce j.val v a.isLt ha⟩
  · exact ⟨maskWritten s.wmask i, perform_writeReg_named s (r := .w i) v nofun, rfl⟩
  · exact fun offset h4 h => perform_writeReg_reserved s v h4 h

/-- Settles O49: every register by its name. -/
theorem hostRegisterReads : Obligations.HostRegisterReads := by
  intro s
  refine ⟨rfl, rfl, rfl, rfl, rfl, ⟨_, rfl, toNat_lowHalf s.ilen⟩, ⟨_, rfl, toNat_highHalf s.ilen⟩,
    ⟨_, rfl, toNat_lowHalf s.olen⟩, ⟨_, rfl, toNat_highHalf s.olen⟩,
    fun j => perform_readReg_named s (.keyw j), fun j => ?_,
    fun i => perform_readReg_named s (.w i)⟩
  rw [← wordOfBytes_eq_le32]
  exact perform_readReg_named s (.noncew j)

/-- Settles O50: a half is read from where it was written, a byte register word by word. -/
theorem registerReadBack : Obligations.RegisterReadBack := by
  intro s r v
  cases r with
  | ilenLo => exact lowHalf_setLowHalf s.ilen v
  | ilenHi => exact highHalf_setHighHalf s.ilen v
  | olenLo => exact lowHalf_setLowHalf s.olen v
  | olenHi => exact highHalf_setHighHalf s.olen v
  | noncew j => exact wordOfBytes_setWordOfBytes s.nonce j.val v (by omega)
  | w i => exact Vector.getElem_set_self i.isLt
  | _ => rfl

/-- Settles O51: the fields of the number STATUS is. -/
theorem statusLayout : Obligations.StatusLayout := by
  intro s
  have hmask := s.wmask.isLt
  have hcode : s.err.code.toNat < 2 ^ 4 := s.err.code.isLt
  have hvalid : s.wvalid.toNat = if s.wmask = 0xFFFF#16 then 1 else 0 := by
    by_cases h : s.wmask = 0xFFFF#16
    · rw [(State.wvalid_iff s).mpr h, if_pos h, Bool.toNat_true]
    · rw [Bool.eq_false_iff.mpr fun hv => h ((State.wvalid_iff s).mp hv), if_neg h,
        Bool.toNat_false]
  have hbit := Bool.toNat_le s.wvalid
  rw [← hvalid]
  simp only [slice, State.toNat_status]
  refine ⟨?_, ?_, ?_, ?_, fun v => rfl, State.status_reset⟩ <;> omega

/-- Settles O52: no register has a reserved offset. -/
theorem reservedOffsetsReadZero : Obligations.ReservedOffsetsReadZero := fun s _ h4 h =>
  ⟨perform_readReg_reserved s h4 h, fun v => perform_writeReg_reserved s v h4 h⟩

/-! ### WMASK (R22) -/

/-- R22: WMASK after a command, by the command and its result. -/
theorem Executed.wmask_eq {i : Instr} {s t : State} (h : Executed i s t) :
    t.wmask =
      if t.err ≠ .ok then s.wmask
      else if i = .init ∨ i = .block then 0xFFFF#16
      else if i = .wipe ∨ i = .enc ∨ i = .dec then 0#16
      else s.wmask := by
  cases h with
  | raised e he => simp [he]
  | ser => rw [Executed.ser.ser_frame.1]; simp
  | enc hcheck | dec hcheck => rw [State.process_of_ok s hcheck]; simp
  | init | block => simp [wmaskFull]
  | _ => simp

/-- R22: no access of the host but a write of `Wi`, a command and a reset changes WMASK. -/
theorem perform_wmask_eq {m : HostMove} {s t : State} (h : perform m s = .next t)
    (hc : ∀ c, m ≠ .commandThenReset c) (hr : m ≠ .reset)
    (hw : ∀ o n v, m = .writeReg o n v → o ≠ 0 ∧ ¬(0x80 ≤ o ∧ o < 0xC0)) :
    t.wmask = s.wmask := by
  rcases perform_cases h with ⟨o, n, v, rfl⟩ | ⟨p, rfl⟩ | ⟨a, b, -, rfl⟩ | ⟨a, b, -, rfl⟩ |
    ⟨hm, -⟩ | ⟨c, hm, -⟩
  · obtain ⟨hcmd, hword⟩ := hw o n v rfl
    rcases perform_writeReg_cases o n v with ⟨ho, -⟩ | ⟨r, -, ho, hx⟩ | hx | hx
    · exact absurd ho hcmd
    · rw [hx s] at h
      obtain rfl := Host.Outcome.next.inj h
      refine s.wmask_writeReg_of_ne v fun i hi => hword ?_
      rw [ho, hi, RegName.offset]
      omega
    · rw [hx s] at h
      rw [Host.Outcome.next.inj h]
    · rw [hx s] at h
      cases h
  · rfl
  · rfl
  · rfl
  · exact absurd hm hr
  · exact absurd hm (hc c)

/-- Settles O43: the host's write of a word, the commands, reset, the other accesses. -/
theorem writtenMaskRule : Obligations.WrittenMaskRule :=
  ⟨fun s i v => ⟨s.writeReg (.w i) v, perform_writeReg_named s (r := .w i) v nofun,
      getLsbD_maskWritten s.wmask i⟩,
    fun _ _ _ h => (exec_executed h).wmask_eq, fun _ => rfl, fun _ _ _ => perform_wmask_eq⟩

/-! ### Commands, buffers, reset -/

/-- A step serves the access that stands first. -/
theorem step_of_pending {s : State} {m : HostMove} {rest : List HostMove}
    (h : s.pending = m :: rest) : step s = perform m (s.serving rest) := by
  rw [step, h]

theorem issue_of_decode {c : Word} {i : Instr} (h : decode c = .command i) (s : State) :
    issue c s = exec i s := by
  rw [issue, h]

/-- Settles O10: the step serves a write of CMD, and the write issues its word. -/
theorem stepRunsTheDecodedCommand : Obligations.StepRunsTheDecodedCommand := by
  have hissue : ∀ (s : State) (c : Word) (rest : List HostMove),
      s.pending = .writeReg 0 4 c :: rest →
        step s = issue c { s with pending := rest, reply := .nothing } := by
    intro s c rest h
    rw [step_of_pending h, perform_writeReg_cmd]
    rfl
  refine ⟨perform_writeReg_cmd, hissue, fun s c rest i h hi => ?_, fun s w i hw hi => ?_⟩
  · rw [hissue s c rest h, issue_of_decode hi]
  · have hpending : (s.withFetchWord 32 w).pending
        = .writeReg 0 4 (BitVec.ofNat 32 w) :: s.pending := by
      rw [State.withFetchWord, Nat.mod_eq_of_lt hw]
      rfl
    rw [hissue _ _ _ hpending, issue_of_decode hi]
    rfl

/-- R40, R230: reset gives every register its value of the table. -/
theorem State.registersReset_engineReset (s : State) : s.engineReset.RegistersReset :=
  ⟨rfl, rfl, rfl, rfl, rfl, rfl, rfl, rfl, rfl, rfl, rfl, rfl, rfl⟩

/-- Settles O45: reset gives the values of the table by definition, and serving the access before it
touches no register and no buffer. -/
theorem resetValues : Obligations.ResetValues := by
  refine ⟨fun s rest h => ?_, State.reset.registersReset_engineReset⟩
  exact ⟨(s.serving rest).engineReset, step_of_pending h, State.registersReset_engineReset _,
    fun _ => rfl, fun _ => rfl, State.status_reset, fun i => Vector.getElem_replicate i.isLt⟩

/-- Settles O53: a store to a buffer is seen at its own address only. -/
theorem hostBufferAccess : Obligations.HostBufferAccess := fun s a b =>
  ⟨⟨_, rfl, fun x => s.inBuf.read_write a.toNat x b⟩,
    ⟨_, rfl, fun x => s.outBuf.read_write a.toNat x b⟩, rfl, rfl⟩

end Sys2Proof.Machine
end

section
/-! PROOFS. KEY, S and KS do not reach the host (10_state.md, R25, R43, R214, R220). -/

namespace Sys2Proof.Machine

/-- Engines that agree on what is public differ in KEY, S and KS at most. -/
theorem State.publicEq_iff (s t : State) :
    s.PublicEq t ↔ ∃ key snap ks, t = { s with key := key, snap := snap, ks := ks } := by
  constructor
  · rintro ⟨h1, h2, h3, h4, h5, h6, h7, h8, h9, h10, h11, h12, h13, h14, h15⟩
    refine ⟨t.key, t.snap, t.ks, ?_⟩
    rw [h1, h2, h3, h4, h5, h6, h7, h8, h9, h10, h11, h12, h13, h14, h15]
  · rintro ⟨key, snap, ks, rfl⟩
    exact ⟨rfl, rfl, rfl, rfl, rfl, rfl, rfl, rfl, rfl, rfl, rfl, rfl, rfl, rfl, rfl⟩

/-- No register the host reads shows KEY, S or KS. -/
theorem State.PublicEq.readOffset {s t : State} (h : s.PublicEq t) (offset : Nat) :
    s.readOffset offset = t.readOffset offset := by
  obtain ⟨key, snap, ks, rfl⟩ := (s.publicEq_iff t).mp h
  unfold State.readOffset
  cases regAt offset with
  | none => rfl
  | some r => cases r <;> rfl

/-- A register write puts the same word into both engines. -/
theorem State.PublicEq.writeReg {s t : State} (h : s.PublicEq t) (r : RegName) (v : Word) :
    (s.writeReg r v).PublicEq (t.writeReg r v) := by
  obtain ⟨key, snap, ks, rfl⟩ := (s.publicEq_iff t).mp h
  cases r <;> exact ⟨rfl, rfl, rfl, rfl, rfl, rfl, rfl, rfl, rfl, rfl, rfl, rfl, rfl, rfl, rfl⟩

/-- R231: the range of an abandoned command depends on its word and on ILEN. -/
theorem State.abandonedRange_congr {s t : State} (h : s.ilen = t.ilen) (c : Word) :
    s.abandonedRange c = t.abandonedRange c := by
  rw [State.abandonedRange, State.abandonedRange, h]

theorem State.abandonedRange_le (s : State) (c : Word) : s.abandonedRange c ≤ 2 ^ 64 := by
  have hlen := s.ilen.isLt
  unfold State.abandonedRange
  split
  · exact hlen.le
  · exact hlen.le
  · decide
  · exact Nat.zero_le _
  · exact Nat.zero_le _

/-- R231: OUT past the range of an abandoned command is as it was. -/
theorem State.abandon_read (s : State) (c : Word) {a : Nat} (ha : s.abandonedRange c ≤ a) :
    (s.abandon c).outBuf.read a = s.outBuf.read a := by
  rw [State.abandon_eq]
  simp only
  rw [State.fillFree_read _ _ _ (s.abandonedRange_le c), if_neg (Nat.not_lt.mpr ha)]

/-- An access that issues no command does alike in engines that agree on what is public. -/
theorem State.PublicEq.perform_next {m : HostMove} {s t u : State} (h : s.PublicEq t)
    (hcmd : ∀ n v, m ≠ .writeReg 0 n v) (habandon : ∀ c, m ≠ .commandThenReset c)
    (hp : perform m s = .next u) : ∃ v, perform m t = .next v ∧ u.PublicEq v := by
  cases m with
  | writeReg o n v =>
    rcases perform_writeReg_cases o n v with ⟨rfl, -⟩ | ⟨r, -, -, hx⟩ | hx | hx
    · exact absurd rfl (hcmd n v)
    all_goals rw [hx s] at hp
    · exact ⟨t.writeReg r v, hx t, Host.Outcome.next.inj hp ▸ h.writeReg r v⟩
    · exact ⟨t, hx t, Host.Outcome.next.inj hp ▸ h⟩
    · cases hp
  | commandThenReset c => exact absurd rfl (habandon c)
  | readReg o n =>
    have hread := h.readOffset o
    rw [perform] at hp ⊢
    split_ifs at hp ⊢
    obtain rfl := Host.Outcome.next.inj hp
    exact ⟨_, rfl, { h with reply := congrArg Reply.word hread }⟩
  | writeIn a b =>
    obtain rfl := Host.Outcome.next.inj hp
    exact ⟨_, rfl, { h with inBuf := congrArg (Memory.write · a.toNat b) h.inBuf }⟩
  | readIn a =>
    obtain rfl := Host.Outcome.next.inj hp
    exact ⟨_, rfl, { h with reply := congrArg (Reply.byte <| Memory.read · a.toNat) h.inBuf }⟩
  | writeOut a b =>
    obtain rfl := Host.Outcome.next.inj hp
    exact ⟨_, rfl, { h with outBuf := congrArg (Memory.write · a.toNat b) h.outBuf }⟩
  | readOut a =>
    obtain rfl := Host.Outcome.next.inj hp
    exact ⟨_, rfl, { h with reply := congrArg (Reply.byte <| Memory.read · a.toNat) h.outBuf }⟩
  | reset =>
    obtain rfl := Host.Outcome.next.inj hp
    exact ⟨_, rfl, rfl, rfl, rfl, rfl, rfl, rfl, rfl, rfl, rfl, rfl, h.inBuf, h.outBuf, h.pending,
      h.reply, h.freeNext⟩

/-- R231: after an abandoned command the registers are those of reset, and the free bytes used are
as many in both engines. -/
theorem State.PublicEq.abandon {s t : State} (h : s.PublicEq t) (c : Word) :
    State.PublicEq { s.abandon c with outBuf := (t.abandon c).outBuf } (t.abandon c) := by
  have hrange := State.abandonedRange_congr h.ilen c
  rw [State.abandon_eq s, State.abandon_eq t, hrange, h.freeNext]
  exact ⟨rfl, rfl, rfl, rfl, rfl, rfl, rfl, rfl, rfl, rfl, h.inBuf, rfl, h.pending, h.reply, rfl⟩

/-- Settles O54: no access reads or copies KEY, S or KS; an abandoned command leaves OUT past its
range as it was. -/
theorem secretsDoNotReachTheHost : Obligations.SecretsDoNotReachTheHost := by
  refine ⟨fun m s t u h hcmd habandon hp => h.perform_next hcmd habandon hp, fun c s t u h hp => ?_⟩
  obtain rfl := Host.Outcome.next.inj hp
  refine ⟨t.abandon c, rfl, h.abandon c, fun a ha => ?_⟩
  have hrange := State.abandonedRange_congr h.ilen c
  rw [s.abandon_read c ha, t.abandon_read c (hrange ▸ ha), h.outBuf]

end Sys2Proof.Machine
end

section
/-! PROOFS. The matrix read back from its bytes, and which accesses the bus refuses
(20_memory.md, R63 and R65). -/

namespace Sys2Proof.Machine

/-! ### The serialized matrix (R63) -/

/-- R63: byte `k` of word `j` stands at index `4j + k`. -/
theorem getElem_serBytes_word (m : WordState) {j k : Nat} (hj : j < 16) (hk : k < 4) :
    (serBytes m)[4 * j + k] = byteOf m[j] k := by
  have hword : (4 * j + k) / 4 = j := by omega
  have hbyte : (4 * j + k) % 4 = k := by omega
  simp only [getElem_serBytes, hword, hbyte]

/-- Settles O3: the four bytes of a word stand together in rising order, and their little-endian
assembly is the word. -/
theorem serializationReadsBack : Obligations.SerializationReadsBack := by
  intro m j
  have hbyte : ∀ k (hk : k < 4), (serBytes m)[4 * j.val + k] = byteOf m[j.val] k :=
    fun _ hk => getElem_serBytes_word m j.isLt hk
  have hlow : (serBytes m)[4 * j.val] = byteOf m[j.val] 0 := hbyte 0 (by omega)
  rw [wordOfBytes_eq_le32 _ (by omega), hlow, hbyte 1 (by omega), hbyte 2 (by omega),
    hbyte 3 (by omega), le32_byteOf]

/-! ### Refused accesses (R65, R211) -/

/-- R176, R211: every command answers a next state. -/
theorem exists_exec_eq_next (i : Instr) (s : State) : ∃ t, exec i s = .next t := by
  rcases exec_cases i s with ⟨_, -, hx⟩ | ⟨_, -, hx, -⟩ | ⟨-, -, hx⟩ | ⟨-, -, hx⟩ |
      ⟨-, -, -, hx⟩ | ⟨-, -, hx⟩ | ⟨-, hx⟩ | ⟨-, hx⟩ <;>
    exact ⟨_, hx⟩

/-- R211: a write to CMD is served whatever the word. -/
theorem exists_issue_eq_next (c : Word) (s : State) : ∃ t, issue c s = .next t := by
  cases hd : decode c with
  | command i => rw [issue_of_decode hd]; exact exists_exec_eq_next i s
  | illegal why => exact ⟨s.raise .illegalCommand, by rw [issue, hd]⟩

theorem exists_writeOffset_eq_next (offset : Nat) (v : Word) (s : State) :
    ∃ t, writeOffset offset v s = .next t := by
  unfold writeOffset
  split
  · exact exists_issue_eq_next v s
  · exact ⟨_, rfl⟩
  · exact ⟨_, rfl⟩

/-- R65: a register write is served exactly when the bus serves it. -/
theorem perform_writeReg_served (s : State) (offset width : Nat) (v : Word) :
    (width = 4 ∧ offset % 4 = 0 ∧ offset < 0x100 →
      ∃ t, perform (.writeReg offset width v) s = .next t) ∧
    (¬(width = 4 ∧ offset % 4 = 0 ∧ offset < 0x100) →
      perform (.writeReg offset width v) s = .refused .busAccess) := by
  rw [← busServes_iff, perform]
  refine ⟨fun h => ?_, fun h => if_neg h⟩
  rw [if_pos h]
  exact exists_writeOffset_eq_next offset v s

/-- R65: a register read is served exactly when the bus serves it. -/
theorem perform_readReg_served (s : State) (offset width : Nat) :
    (width = 4 ∧ offset % 4 = 0 ∧ offset < 0x100 →
      ∃ t, perform (.readReg offset width) s = .next t) ∧
    (¬(width = 4 ∧ offset % 4 = 0 ∧ offset < 0x100) →
      perform (.readReg offset width) s = .refused .busAccess) := by
  rw [← busServes_iff, perform]
  exact ⟨fun h => ⟨_, if_pos h⟩, fun h => if_neg h⟩

/-- R66, R220: an access of a buffer and a reset are served always. -/
theorem exists_perform_eq_next {m : HostMove} (s : State) (hwrite : ∀ o n v, m ≠ .writeReg o n v)
    (hread : ∀ o n, m ≠ .readReg o n) : ∃ t, perform m s = .next t := by
  cases m with
  | writeReg o n v => exact absurd rfl (hwrite o n v)
  | readReg o n => exact absurd rfl (hread o n)
  | _ => exact ⟨_, rfl⟩

/-- Settles O12: a step serves the access that stands first, and only the bus refuses. -/
theorem onlyBadRegisterAccessesAreRefused : Obligations.OnlyBadRegisterAccessesAreRefused := by
  refine fun s rest => ⟨fun offset width v h => ?_, fun offset width h => ?_,
    fun m h hwrite hread => ?_⟩ <;>
    rw [step_of_pending h]
  · exact perform_writeReg_served _ offset width v
  · exact perform_readReg_served _ offset width
  · exact exists_perform_eq_next _ hwrite hread

end Sys2Proof.Machine
end

section
/-! PROOFS. Commands issued twice: the outcome of a command does not depend on ERR (R213), and a
second store of the same bytes leaves OUT as it is (20_memory.md, R69). -/

namespace Sys2Proof.Machine

/-! ### Commands do not look at ERR (R213) -/

@[simp] theorem State.raise_raise (s : State) (e f : ErrCode) : (s.raise e).raise f = s.raise f :=
  rfl

@[simp] theorem State.complete_raise (s : State) (e : ErrCode) :
    (s.raise e).complete = s.complete := rfl

@[simp] theorem State.wvalid_raise (s : State) (e : ErrCode) : (s.raise e).wvalid = s.wvalid := rfl

@[simp] theorem State.lengthsOk_raise (s : State) (e : ErrCode) :
    (s.raise e).lengthsOk = s.lengthsOk := rfl

theorem State.generate_raise (s : State) (e : ErrCode) (ctr : Word) :
    (s.raise e).generate ctr = (s.generate ctr).raise e := by
  simp only [State.generate_eq]
  rfl

theorem State.memWriteList_raise (s : State) (e : ErrCode) (a : Nat) (bs : List Byte) :
    (s.raise e).memWriteList a bs = (s.memWriteList a bs).raise e := by
  induction bs generalizing s a with
  | nil => rfl
  | cons b bs ih => exact ih (s.memWrite (BitVec.ofNat 64 a) b) (a + 1)

theorem State.xorChunk_raise (s : State) (e : ErrCode) (i len : Nat) :
    (s.raise e).xorChunk i len = (s.xorChunk i len).raise e := by
  induction len with
  | zero => rfl
  | succ j ih => rw [State.xorChunk, ih]; rfl

theorem State.processChunk_raise (s : State) (e : ErrCode) (i : Nat) :
    (s.raise e).processChunk i = (s.processChunk i).raise e :=
  congrArg State.scrubKeystream ((s.loadKeystream i).xorChunk_raise e i _)

theorem State.processChunks_raise (s : State) (e : ErrCode) (n : Nat) :
    (s.raise e).processChunks n = (s.processChunks n).raise e := by
  induction n with
  | zero => rfl
  | succ i ih => rw [State.processChunks, ih, State.processChunk_raise, State.processChunks]

theorem State.process_raise (s : State) (e : ErrCode) : (s.raise e).process = s.process := by
  have hcheck : (s.raise e).processCheck = s.processCheck := rfl
  cases hc : s.processCheck with
  | some _ =>
    rw [s.process_of_error hc, (s.raise e).process_of_error (hcheck.trans hc), State.raise_raise]
  | none =>
    rw [s.process_of_ok hc, (s.raise e).process_of_ok (hcheck.trans hc),
      State.processChunks_raise]
    rfl

/-- R213: a command ends alike whatever error the one before it left. -/
theorem exec_raise (i : Instr) (s : State) (e : ErrCode) : exec i (s.raise e) = exec i s := by
  cases i with
  | block => simp [exec, execBlock, State.generate_raise]
  | ser => simp [exec, execSer, State.memWriteList_raise]
  | enc | dec => exact congrArg Host.Outcome.next (s.process_raise e)
  | _ => rfl

/-! ### A second store of the same bytes -/

/-- R150: a list stored again over itself. -/
theorem State.memWriteList_again {s : State} {a : Nat} {bs : List Byte}
    (hlen : a + bs.length ≤ 2 ^ 64) (hwf : s.outBuf.wf = true) :
    (s.memWriteList a bs).memWriteList a bs = s.memWriteList a bs := by
  have hread := s.memWriteList_read a bs hlen
  have htwf := s.memWriteList_wf a bs hwf
  generalize s.memWriteList a bs = t at hread htwf
  have hout : (t.memWriteList a bs).outBuf = t.outBuf := by
    refine Memory.ext_of_wf (t.memWriteList_wf a bs htwf) htwf fun x => ?_
    rw [State.memWriteList_read _ _ _ hlen, hread]
    split <;> rfl
  rw [State.memWriteList_eq, hout]

/-- R150: SER reads nothing it writes. -/
theorem exec_ser_again {s : State} (hfull : s.wmask = wmaskFull) (holen : s.olen = 64#64)
    (hwf : s.outBuf.wf = true) :
    exec .ser (s.memWriteList 0 (serBytes s.w).toList).complete =
      .next (s.memWriteList 0 (serBytes s.w).toList).complete := by
  have hlen : 0 + (serBytes s.w).toList.length ≤ 2 ^ 64 := by
    rw [Vector.length_toList]
    decide
  have hframe := s.memWriteList_eq 0 (serBytes s.w).toList
  have hagain := State.memWriteList_again hlen hwf
  generalize s.memWriteList 0 (serBytes s.w).toList = t at hframe hagain
  have hw : t.w = s.w := by rw [hframe]
  have hready : t.wmask = wmaskFull ∧ t.olen = 64#64 := by
    rw [hframe]
    exact ⟨hfull, holen⟩
  calc exec .ser t.complete
      = execSer t := exec_raise .ser t .ok
    _ = .next (t.memWriteList 0 (serBytes t.w).toList).complete :=
        execSer_of_ready t hready.1 hready.2
    _ = .next t.complete := by rw [hw, hagain]

/-- R160: a passed check passes again after the command. -/
theorem State.processCheck_process {s : State} (hcheck : s.processCheck = none) :
    s.process.processCheck = none := by
  rw [s.process_of_ok hcheck]
  exact hcheck

theorem State.process_wf {s : State} (hcheck : s.processCheck = none)
    (hwf : s.outBuf.wf = true) : s.process.outBuf.wf = true := by
  rw [s.process_of_ok hcheck]
  exact s.processChunks_wf _ hwf

/-- R160, R162: the bytes stored depend on IN and the registers ENC and DEC keep. -/
theorem State.outBuf_process_again {s : State} (hcheck : s.processCheck = none)
    (hwf : s.outBuf.wf = true) : s.process.process.outBuf = s.process.outBuf := by
  have hcheck' := State.processCheck_process hcheck
  have hwf' := State.process_wf hcheck hwf
  refine Memory.ext_of_wf (State.process_wf hcheck' hwf') hwf' fun x => ?_
  obtain ⟨hnonce, -, hictr, hilen, -, hin, hkey⟩ := (Executed.enc hcheck).keeps_operands
  obtain ⟨hkey, -⟩ := hkey nofun
  have hctr : s.process.counterWord (x / 64) = s.counterWord (x / 64) := by
    rw [State.counterWord, hictr, State.counterWord]
  rw [State.process_read _ hcheck', hilen, hin, hkey, hnonce, hctr, State.process_read s hcheck]
  split <;> rfl

/-- R160, R161: ENC and DEC read nothing they write. -/
theorem State.process_again {s : State} (hcheck : s.processCheck = none)
    (hwf : s.outBuf.wf = true) : s.process.process = s.process := by
  have hout := State.outBuf_process_again hcheck hwf
  rw [State.process_of_ok _ (State.processCheck_process hcheck)] at hout ⊢
  rw [hout, s.process_of_ok hcheck]

/-! ### INIT and BLOCK again -/

/-- R140: INIT computes W from the key, the nonce and ICTR, which it keeps. -/
theorem exec_init_again {s : State} (hlen : s.lengthsOk = true) :
    exec .init (s.initMatrix s.ictr).complete = .next (s.initMatrix s.ictr).complete :=
  execInit_of_lengths _ hlen

/-- R145, R168: the body of BLOCK reads nothing it writes. -/
theorem State.generate_again (s : State) (ctr : Word) :
    (s.generate ctr).generate ctr = s.generate ctr := by
  rw [s.generate_eq, State.generate_eq]

theorem State.lengthsOk_generate (s : State) (ctr : Word) :
    (s.generate ctr).lengthsOk = s.lengthsOk := by
  rw [State.lengthsOk, State.klen_generate, State.nlen_generate, State.lengthsOk]

/-- R145: BLOCK computes W from the key, the nonce and ICTR, which it keeps. -/
theorem exec_block_again {s : State} (hlen : s.lengthsOk = true) :
    exec .block (s.generate s.ictr).complete = .next (s.generate s.ictr).complete := by
  have hlen' := (s.lengthsOk_generate s.ictr).trans hlen
  calc exec .block (s.generate s.ictr).complete
      = execBlock (s.generate s.ictr) := exec_raise .block _ .ok
    _ = .next (s.generate s.ictr).complete := by
        rw [execBlock_of_lengths _ hlen', State.ictr_generate, State.generate_again]

/-! ### The statement -/

/-- Settles O44: an error raised once is raised again, and no command of the list reads what it
writes. -/
theorem repeatedCommandChangesNothing : Obligations.RepeatedCommandChangesNothing := by
  intro i s t hi hwf h
  rcases exec_cases i s with ⟨e, -, hx⟩ | ⟨m, -, -, hmix⟩ | ⟨rfl, hlen, hx⟩ | ⟨rfl, hlen, hx⟩ |
      ⟨rfl, hfull, holen, hx⟩ | ⟨hproc, hcheck, hx⟩ | ⟨rfl, hx⟩ | ⟨rfl, hx⟩
  case inr.inl =>
    rcases hmix with ⟨x, y, z, r, rfl, -⟩ | ⟨a, b, c, d, rfl, -⟩ | ⟨rfl, -⟩ <;> simp at hi
  all_goals obtain rfl := Host.Outcome.next.inj (hx.symm.trans h)
  · rw [exec_raise, hx]
  · exact exec_init_again hlen
  · exact exec_block_again hlen
  · exact exec_ser_again hfull holen hwf
  · rcases hproc with rfl | rfl <;> exact congrArg Host.Outcome.next (State.process_again hcheck hwf)
  · rfl
  · rfl

end Sys2Proof.Machine
end

section
/-! PROOFS. The decoder and the encoder: the fields of a command's word, the four forms decoding can
take by the opcode field, and the two directions of the round trip (30_encoding.md, R90 to R95). -/

namespace Sys2Proof

/-! ### Fields (R94, R95) -/

@[simp] theorem val_indexField (c : Word) (lo : Nat) :
    (indexField c lo).val = slice c (lo + 3) lo := by
  rw [indexField, Fin.val_ofNat, slice, Nat.add_sub_cancel_left]
  exact Nat.mod_mod _ _

@[simp] theorem val_rotationField (c : Word) : (rotationField c).val = slice c 16 12 := by
  rw [rotationField, Fin.val_ofNat]
  exact Nat.mod_mod _ _

theorem ifMustBeZero_eq_command_iff {c : Word} {hi lo : Nat} {i j : Instr} :
    ifMustBeZero c hi lo i = .command j ↔ slice c hi lo = 0 ∧ i = j := by
  unfold ifMustBeZero
  split <;> simp [*]

theorem ifMustBeZero_of_zero {c : Word} {hi lo : Nat} (i : Instr) (h : slice c hi lo = 0) :
    ifMustBeZero c hi lo i = .command i := if_pos h

theorem ifMustBeZero_of_nonzero {c : Word} {hi lo : Nat} (i : Instr) (h : slice c hi lo ≠ 0) :
    ifMustBeZero c hi lo i = .illegal .nonzeroMustBeZero := if_neg h

theorem exists_ifMustBeZero_eq_illegal_iff {c : Word} {hi lo : Nat} {i : Instr} :
    (∃ why, ifMustBeZero c hi lo i = .illegal why) ↔ slice c hi lo ≠ 0 := by
  unfold ifMustBeZero
  split <;> simp [*]

/-! ### The fields of a command's word (R91 to R93) -/

theorem slice_encode_round (x y z : Fin 16) (r : Fin 32) :
    slice (encode (.round x y z r)) 31 24 = 1 ∧ slice (encode (.round x y z r)) 23 17 = 0 ∧
      slice (encode (.round x y z r)) 3 0 = x.val ∧ slice (encode (.round x y z r)) 7 4 = y.val ∧
      slice (encode (.round x y z r)) 11 8 = z.val ∧
      slice (encode (.round x y z r)) 16 12 = r.val := by
  have hx := x.isLt
  have hy := y.isLt
  have hz := z.isLt
  have hr := r.isLt
  simp only [slice, encode, BitVec.toNat_ofNat]
  omega

theorem slice_encode_qround (a b c d : Fin 16) :
    slice (encode (.qround a b c d)) 31 24 = 2 ∧ slice (encode (.qround a b c d)) 23 16 = 0 ∧
      slice (encode (.qround a b c d)) 3 0 = a.val ∧
      slice (encode (.qround a b c d)) 7 4 = b.val ∧
      slice (encode (.qround a b c d)) 11 8 = c.val ∧
      slice (encode (.qround a b c d)) 15 12 = d.val := by
  have ha := a.isLt
  have hb := b.isLt
  have hc := c.isLt
  have hd := d.isLt
  simp only [slice, encode, BitVec.toNat_ofNat]
  omega

/-- R91: the word of a command without operands is its opcode field. -/
theorem toNat_encode_of_no_operands {i : Instr} (hi : i.operands = []) :
    (encode i).toNat = slice (encode i) 31 24 * 2 ^ 24 := by
  cases i with
  | round | qround => exact absurd hi (List.cons_ne_nil _ _)
  | _ => rfl

/-- R96: the opcodes 3 to 10 are those of the commands without operands. -/
theorem exists_command_of_opcode {op : Nat} (hlo : 3 ≤ op) (hhi : op ≤ 10) :
    ∃ i : Instr, i.operands = [] ∧ slice (encode i) 31 24 = op := by
  interval_cases op
  · exact ⟨.dround, rfl, rfl⟩
  · exact ⟨.init, rfl, rfl⟩
  · exact ⟨.block, rfl, rfl⟩
  · exact ⟨.ser, rfl, rfl⟩
  · exact ⟨.enc, rfl, rfl⟩
  · exact ⟨.dec, rfl, rfl⟩
  · exact ⟨.wipe, rfl, rfl⟩
  · exact ⟨.clrkey, rfl, rfl⟩

/-! ### Decoding by the opcode field (R95) -/

theorem opcode_cases (op : Nat) :
    op ∉ [1, 2, 3, 4, 5, 6, 7, 8, 9, 10] ∨ op = 1 ∨ op = 2 ∨ 3 ≤ op ∧ op ≤ 10 := by
  simp only [List.mem_cons, List.not_mem_nil, or_false]
  omega

theorem decode_of_opcode_unknown {c : Word}
    (h : slice c 31 24 ∉ [1, 2, 3, 4, 5, 6, 7, 8, 9, 10]) :
    decode c = .illegal .unknownOpcode := by
  unfold decode
  split
  case h_11 => rfl
  all_goals exact absurd (by simp [*]) h

theorem decode_of_opcode_round {c : Word} (h : slice c 31 24 = 1) :
    decode c = ifMustBeZero c 23 17
      (.round (indexField c 0) (indexField c 4) (indexField c 8) (rotationField c)) := by
  simp only [decode, h]

theorem decode_of_opcode_qround {c : Word} (h : slice c 31 24 = 2) :
    decode c = ifMustBeZero c 23 16
      (.qround (indexField c 0) (indexField c 4) (indexField c 8) (indexField c 12)) := by
  simp only [decode, h]

theorem decode_of_opcode_no_operands {c : Word} {i : Instr} (hi : i.operands = [])
    (h : slice c 31 24 = slice (encode i) 31 24) : decode c = ifMustBeZero c 23 0 i := by
  rw [decode, h]
  cases i with
  | round | qround => exact absurd hi (List.cons_ne_nil _ _)
  | _ => rfl

/-! ### The round trip -/

/-- Settles O5: the two commands with operands field by field, the others word by word. -/
theorem decodeOfEncodeIsTheCommand : Obligations.DecodeOfEncodeIsTheCommand := by
  intro i
  cases i with
  | round x y z r =>
    obtain ⟨hop, hzero, hx, hy, hz, hr⟩ := slice_encode_round x y z r
    rw [decode_of_opcode_round hop, ifMustBeZero_of_zero _ hzero]
    simp only [Decoded.command.injEq, Instr.round.injEq, Fin.ext_iff, val_indexField,
      val_rotationField, hx, hy, hz, hr, and_self]
  | qround a b c d =>
    obtain ⟨hop, hzero, ha, hb, hc, hd⟩ := slice_encode_qround a b c d
    rw [decode_of_opcode_qround hop, ifMustBeZero_of_zero _ hzero]
    simp only [Decoded.command.injEq, Instr.qround.injEq, Fin.ext_iff, val_indexField,
      ha, hb, hc, hd, and_self]
  | _ => rfl

/-- Settles O6: the fields of a word that decodes to a command are all of its bits. -/
theorem encodeOfDecodeIsTheWord : Obligations.EncodeOfDecodeIsTheWord := by
  intro c i h
  have hc := c.isLt
  apply BitVec.eq_of_toNat_eq
  rcases opcode_cases (slice c 31 24) with hop | hop | hop | ⟨hlo, hhi⟩
  · rw [decode_of_opcode_unknown hop] at h
    cases h
  · rw [decode_of_opcode_round hop, ifMustBeZero_eq_command_iff] at h
    obtain ⟨hzero, rfl⟩ := h
    simp only [encode, val_indexField, val_rotationField, slice, BitVec.toNat_ofNat] at hop hzero ⊢
    omega
  · rw [decode_of_opcode_qround hop, ifMustBeZero_eq_command_iff] at h
    obtain ⟨hzero, rfl⟩ := h
    simp only [encode, val_indexField, slice, BitVec.toNat_ofNat] at hop hzero ⊢
    omega
  · obtain ⟨j, hj, hopj⟩ := exists_command_of_opcode hlo hhi
    rw [decode_of_opcode_no_operands hj hopj.symm, ifMustBeZero_eq_command_iff] at h
    obtain ⟨hzero, rfl⟩ := h
    rw [toNat_encode_of_no_operands hj, hopj]
    simp only [slice] at hzero ⊢
    omega

end Sys2Proof
end

section
/-! PROOFS. Decoding seen from outside: the opcode table by mask and match, the illegal words, and
the words the spec writes out (30_encoding.md, R95 to R99). -/

namespace Sys2Proof

/-! ### Mask and match (R95) -/

/-- A row whose mask drops the low `k` bits accepts by the bits above them. -/
theorem OpcodeRow.accepts_iff_of_mask {row : OpcodeRow} {k : Nat}
    (hmask : row.mask = BitVec.allOnes 32 <<< k) (c : Word) :
    row.accepts c = true ↔ c.toNat / 2 ^ k * 2 ^ k = row.value.toNat := by
  have hle : c.toNat / 2 ^ k * 2 ^ k ≤ c.toNat := Nat.div_mul_le_self _ _
  rw [OpcodeRow.accepts, beq_iff_eq, hmask, ← BitVec.shiftLeft_ushiftRight, ← BitVec.toNat_inj,
    BitVec.toNat_shiftLeft, BitVec.toNat_ushiftRight, Nat.shiftLeft_eq, Nat.shiftRight_eq_div_pow,
    Nat.mod_eq_of_lt (hle.trans_lt c.isLt)]

/-- The row of ROUND accepts by the opcode field and the must-be-zero field. -/
theorem accepts_round_iff (c : Word) :
    OpcodeRow.accepts ⟨"ROUND", 0xFFFE0000#32, 0x01000000#32⟩ c = true ↔
      slice c 31 24 = 1 ∧ slice c 23 17 = 0 := by
  have hc := c.isLt
  rw [OpcodeRow.accepts_iff_of_mask (k := 17) (by decide)]
  simp only [slice, BitVec.toNat_ofNat]
  omega

/-- The row of QROUND accepts by the opcode field and the must-be-zero field. -/
theorem accepts_qround_iff (c : Word) :
    OpcodeRow.accepts ⟨"QROUND", 0xFFFF0000#32, 0x02000000#32⟩ c = true ↔
      slice c 31 24 = 2 ∧ slice c 23 16 = 0 := by
  have hc := c.isLt
  rw [OpcodeRow.accepts_iff_of_mask (k := 16) (by decide)]
  simp only [slice, BitVec.toNat_ofNat]
  omega

/-- A row whose mask keeps every bit accepts its own match only. -/
theorem OpcodeRow.accepts_iff_of_fullMask {row : OpcodeRow} (hmask : row.mask = 0xFFFFFFFF#32)
    (c : Word) : row.accepts c = true ↔ c = row.value := by
  have hones : 0xFFFFFFFF#32 = BitVec.allOnes 32 := by decide
  rw [OpcodeRow.accepts, beq_iff_eq, hmask, hones, BitVec.and_allOnes]

/-- R96: a row is that of ROUND, that of QROUND, or that of a command without operands, whose word
is the row's match. -/
theorem opcodeTable_cases {row : OpcodeRow} (hrow : row ∈ opcodeTable) :
    row = ⟨"ROUND", 0xFFFE0000#32, 0x01000000#32⟩ ∨
    row = ⟨"QROUND", 0xFFFF0000#32, 0x02000000#32⟩ ∨
    (row.mask = 0xFFFFFFFF#32 ∧ ∃ i : Instr, row.mnemonic = i.mnemonic ∧ row.value = encode i) := by
  simp only [opcodeTable, List.mem_cons, List.not_mem_nil, or_false] at hrow
  rcases hrow with rfl | rfl | hplain
  · exact .inl rfl
  · exact .inr (.inl rfl)
  · refine .inr (.inr ?_)
    rcases hplain with rfl | rfl | rfl | rfl | rfl | rfl | rfl | rfl
    · exact ⟨rfl, .dround, rfl, rfl⟩
    · exact ⟨rfl, .init, rfl, rfl⟩
    · exact ⟨rfl, .block, rfl, rfl⟩
    · exact ⟨rfl, .ser, rfl, rfl⟩
    · exact ⟨rfl, .enc, rfl, rfl⟩
    · exact ⟨rfl, .dec, rfl, rfl⟩
    · exact ⟨rfl, .wipe, rfl, rfl⟩
    · exact ⟨rfl, .clrkey, rfl, rfl⟩

/-- R96: every command has a row, and the row accepts its word. -/
theorem exists_row_accepts_encode (i : Instr) :
    ∃ row ∈ opcodeTable, row.mnemonic = i.mnemonic ∧ row.accepts (encode i) = true := by
  cases i with
  | round x y z r =>
    obtain ⟨hop, hzero, -⟩ := slice_encode_round x y z r
    exact ⟨_, .head _, rfl, (accepts_round_iff _).mpr ⟨hop, hzero⟩⟩
  | qround a b c d =>
    obtain ⟨hop, hzero, -⟩ := slice_encode_qround a b c d
    exact ⟨_, .tail _ (.head _), rfl, (accepts_qround_iff _).mpr ⟨hop, hzero⟩⟩
  | _ => decide

/-- R95: a word some row accepts decodes to a command of the row's mnemonic. -/
theorem exists_command_of_accepts {row : OpcodeRow} (hrow : row ∈ opcodeTable) {c : Word}
    (h : row.accepts c = true) : ∃ i, decode c = .command i ∧ i.mnemonic = row.mnemonic := by
  rcases opcodeTable_cases hrow with rfl | rfl | ⟨hmask, i, hname, hvalue⟩
  · obtain ⟨hop, hzero⟩ := (accepts_round_iff c).mp h
    exact ⟨_, (decode_of_opcode_round hop).trans (ifMustBeZero_of_zero _ hzero), rfl⟩
  · obtain ⟨hop, hzero⟩ := (accepts_qround_iff c).mp h
    exact ⟨_, (decode_of_opcode_qround hop).trans (ifMustBeZero_of_zero _ hzero), rfl⟩
  · rw [(OpcodeRow.accepts_iff_of_fullMask hmask c).mp h, hvalue]
    exact ⟨i, decodeOfEncodeIsTheCommand i, hname.symm⟩

/-- R95: a row accepts words of one opcode only, that of its match. -/
theorem opcode_of_accepts {row : OpcodeRow} (hrow : row ∈ opcodeTable) {c : Word}
    (h : row.accepts c = true) : slice c 31 24 = slice row.value 31 24 := by
  rcases opcodeTable_cases hrow with rfl | rfl | ⟨hmask, -⟩
  · exact ((accepts_round_iff c).mp h).1
  · exact ((accepts_qround_iff c).mp h).1
  · rw [(OpcodeRow.accepts_iff_of_fullMask hmask c).mp h]

/-- R95: no word is accepted by two rows, because their opcodes differ. -/
theorem opcodeTable_disjoint (c : Word) :
    opcodeTable.Pairwise fun p q => ¬(p.accepts c = true ∧ q.accepts c = true) := by
  have hopcodes : opcodeTable.Pairwise fun p q => slice p.value 31 24 ≠ slice q.value 31 24 := by
    decide
  refine hopcodes.imp_of_mem fun hp hq hne ⟨hacp, hacq⟩ => hne ?_
  rw [← opcode_of_accepts hp hacp, ← opcode_of_accepts hq hacq]

/-! ### Illegal words (R97) -/

theorem decode_of_mustBeZero_no_operands {c : Word} (hlo : 3 ≤ slice c 31 24)
    (hhi : slice c 31 24 ≤ 10) (h : slice c 23 0 ≠ 0) :
    decode c = .illegal .nonzeroMustBeZero := by
  obtain ⟨i, hi, hop⟩ := exists_command_of_opcode hlo hhi
  exact (decode_of_opcode_no_operands hi hop.symm).trans (ifMustBeZero_of_nonzero _ h)

/-- R97: the illegal words by opcode and must-be-zero field. -/
theorem exists_decode_eq_illegal_iff (c : Word) :
    (∃ why, decode c = .illegal why) ↔
      slice c 31 24 = 0 ∨ 0x0B ≤ slice c 31 24 ∨
        (slice c 31 24 = 1 ∧ slice c 23 17 ≠ 0) ∨ (slice c 31 24 = 2 ∧ slice c 23 16 ≠ 0) ∨
        (3 ≤ slice c 31 24 ∧ slice c 31 24 ≤ 10 ∧ slice c 23 0 ≠ 0) := by
  rcases opcode_cases (slice c 31 24) with hop | hop | hop | ⟨hlo, hhi⟩
  · refine iff_of_true ⟨_, decode_of_opcode_unknown hop⟩ ?_
    simp only [List.mem_cons, List.not_mem_nil, or_false] at hop
    omega
  · rw [decode_of_opcode_round hop, exists_ifMustBeZero_eq_illegal_iff]
    omega
  · rw [decode_of_opcode_qround hop, exists_ifMustBeZero_eq_illegal_iff]
    omega
  · obtain ⟨i, hi, hopi⟩ := exists_command_of_opcode hlo hhi
    rw [decode_of_opcode_no_operands hi hopi.symm, exists_ifMustBeZero_eq_illegal_iff]
    omega

/-! ### The statements -/

/-- Settles O7: the illegal words by opcode, the fields of a command's word, and the rows of the
table. -/
theorem decoderAgreesWithTheOpcodeTable : Obligations.DecoderAgreesWithTheOpcodeTable := by
  intro c
  refine ⟨decode_of_opcode_unknown,
    fun hop h => (decode_of_opcode_round hop).trans (ifMustBeZero_of_nonzero _ h),
    fun hop h => (decode_of_opcode_qround hop).trans (ifMustBeZero_of_nonzero _ h),
    decode_of_mustBeZero_no_operands, fun x y z r h => ?_, fun a b d e h => ?_, fun i h => ?_,
    fun row hrow => exists_command_of_accepts hrow, opcodeTable_disjoint c⟩
  all_goals obtain rfl := encodeOfDecodeIsTheWord c _ h
  · obtain ⟨-, -, hx, hy, hz, hr⟩ := slice_encode_round x y z r
    exact ⟨hx.symm, hy.symm, hz.symm, hr.symm⟩
  · obtain ⟨-, -, ha, hb, hd, he⟩ := slice_encode_qround a b d e
    exact ⟨ha.symm, hb.symm, hd.symm, he.symm⟩
  · exact exists_row_accepts_encode i

/-- Settles O8: a word that decodes to no command is answered by raising the error alone. -/
theorem illegalWordRaisesIllegalCommandOnly : Obligations.IllegalWordRaisesIllegalCommandOnly := by
  refine ⟨fun c => (exists_decode_eq_illegal_iff c).symm, fun c s ⟨why, h⟩ => ?_, rfl, ⟨_, rfl⟩,
    ⟨_, rfl⟩⟩
  rw [Machine.issue, h]
  rfl

/-- Settles O4: closed words, decoded one by one. -/
theorem specWordsDecode : Obligations.SpecWordsDecode := by
  unfold Obligations.SpecWordsDecode
  decide

end Sys2Proof
end

section
/-! PROOFS. The assembler: the lines of the commands are the well-formed lines, and each assembles
to its command (30_encoding.md, R96, R99; operand ranges by R92, R93). -/

namespace Sys2Proof

theorem wellFormed_iff_of_limits {line : AsmLine} {limits : List Nat}
    (h : operandLimits line.mnemonic = some limits) :
    line.wellFormed = true ↔ List.Forall₂ (· < ·) line.operands limits := by
  simp [AsmLine.wellFormed, h, List.forall₂_iff_zip]

/-- R92, R93: the operands of a command are below the limits of its mnemonic. -/
theorem wellFormed_asm (i : Instr) : i.asm.wellFormed = true := by
  cases i with
  | round x y z r =>
    exact (wellFormed_iff_of_limits (limits := [16, 16, 16, 32]) rfl).mpr
      (.cons x.isLt (.cons y.isLt (.cons z.isLt (.cons r.isLt .nil))))
  | qround a b c d =>
    exact (wellFormed_iff_of_limits (limits := [16, 16, 16, 16]) rfl).mpr
      (.cons a.isLt (.cons b.isLt (.cons c.isLt (.cons d.isLt .nil))))
  | _ => rfl

/-- R96: the mnemonics that have operand limits, by format. -/
theorem operandLimits_cases {mnemonic : String} {limits : List Nat}
    (h : operandLimits mnemonic = some limits) :
    (mnemonic = "ROUND" ∧ limits = [16, 16, 16, 32]) ∨
    (mnemonic = "QROUND" ∧ limits = [16, 16, 16, 16]) ∨
    (mnemonic ∈ ["DROUND", "INIT", "BLOCK", "SER", "ENC", "DEC", "WIPE", "CLRKEY"] ∧
      limits = []) := by
  unfold operandLimits at h
  split_ifs at h with hround hqround hplain
  · exact .inl ⟨hround, (Option.some.inj h).symm⟩
  · exact .inr (.inl ⟨hqround, (Option.some.inj h).symm⟩)
  · exact .inr (.inr ⟨hplain, (Option.some.inj h).symm⟩)

/-- R96: the mnemonics without operands are those of commands. -/
theorem exists_asm_eq_mnemonic_alone {mnemonic : String}
    (h : mnemonic ∈ ["DROUND", "INIT", "BLOCK", "SER", "ENC", "DEC", "WIPE", "CLRKEY"]) :
    ∃ i : Instr, i.asm = ⟨mnemonic, []⟩ := by
  simp only [List.mem_cons, List.not_mem_nil, or_false] at h
  rcases h with rfl | rfl | rfl | rfl | rfl | rfl | rfl | rfl
  · exact ⟨.dround, rfl⟩
  · exact ⟨.init, rfl⟩
  · exact ⟨.block, rfl⟩
  · exact ⟨.ser, rfl⟩
  · exact ⟨.enc, rfl⟩
  · exact ⟨.dec, rfl⟩
  · exact ⟨.wipe, rfl⟩
  · exact ⟨.clrkey, rfl⟩

/-- R96, R99: a well-formed line is the line of a command. -/
theorem exists_asm_eq_of_wellFormed {line : AsmLine} (h : line.wellFormed = true) :
    ∃ i : Instr, i.asm = line := by
  obtain ⟨mnemonic, operands⟩ := line
  cases hlim : operandLimits mnemonic with
  | none => simp [AsmLine.wellFormed, hlim] at h
  | some limits =>
    have hops := (wellFormed_iff_of_limits hlim).mp h
    rcases operandLimits_cases hlim with ⟨rfl, rfl⟩ | ⟨rfl, rfl⟩ | ⟨hm, rfl⟩
    · match operands, hops with
      | _, .cons hx (.cons hy (.cons hz (.cons hr .nil))) =>
        exact ⟨.round ⟨_, hx⟩ ⟨_, hy⟩ ⟨_, hz⟩ ⟨_, hr⟩, rfl⟩
    · match operands, hops with
      | _, .cons ha (.cons hb (.cons hc (.cons hd .nil))) =>
        exact ⟨.qround ⟨_, ha⟩ ⟨_, hb⟩ ⟨_, hc⟩ ⟨_, hd⟩, rfl⟩
    · obtain rfl := List.forall₂_nil_right_iff.mp hops
      exact exists_asm_eq_mnemonic_alone hm

theorem assemble_asm (i : Instr) : assemble i.asm = some i := by
  rw [assemble, if_pos (wellFormed_asm i)]
  cases i with
  | round x y z r => simp [Instr.asm, Instr.mnemonic, Instr.operands]
  | qround a b c d => simp [Instr.asm, Instr.mnemonic, Instr.operands]
  | _ => rfl

/-- R99: assembling is the inverse of writing a command as a line. -/
theorem assemble_eq_some_iff (line : AsmLine) (i : Instr) :
    assemble line = some i ↔ i.asm = line := by
  refine ⟨fun h => ?_, fun h => h ▸ assemble_asm i⟩
  have hwf : line.wellFormed = true := by
    by_contra hn
    rw [assemble, if_neg hn] at h
    cases h
  obtain ⟨j, rfl⟩ := exists_asm_eq_of_wellFormed hwf
  rw [Option.some.inj ((assemble_asm j).symm.trans h)]

/-- Settles O9: the lines that assemble are those of the commands, and these are the well-formed
lines. -/
theorem assemblerAgreesWithTheCommands : Obligations.AssemblerAgreesWithTheCommands := by
  refine ⟨assemble_asm, fun line => ?_, fun line i => (assemble_eq_some_iff line i).mp⟩
  simp only [assemble_eq_some_iff]
  exact ⟨fun ⟨i, hi⟩ => hi ▸ wellFormed_asm i, exists_asm_eq_of_wellFormed⟩

end Sys2Proof
end

section
/-! PROOFS. The load directives: a run of register writes as a fold of writes, and what stands in a
byte register after its words are written one by one (30_encoding.md, R100). -/

namespace Sys2Proof.Machine

/-! ### Runs of register writes -/

/-- R45, R100: `WR` of a register other than CMD, before other accesses. -/
theorem performAll_wrReg_append (s : State) {r : RegName} (v : Word) (h : r ≠ .cmd)
    (ms : List HostMove) : performAll (wrReg r v ++ ms) s = performAll ms (s.writeReg r v) := by
  rw [wrReg, List.singleton_append, performAll, perform_writeReg_named s v h]

theorem performAll_wrReg (s : State) {r : RegName} (v : Word) (h : r ≠ .cmd) :
    performAll (wrReg r v) s = .next (s.writeReg r v) := by
  simpa [performAll] using performAll_wrReg_append s v h []

/-- One `WR` per index of a list, before other accesses. -/
theorem performAll_flatMap_wrReg_append {α : Type} {r : α → RegName} (hr : ∀ j, r j ≠ .cmd)
    (v : α → Word) (js : List α) (ms : List HostMove) (s : State) :
    performAll (js.flatMap (fun j => wrReg (r j) (v j)) ++ ms) s =
      performAll ms (js.foldl (fun t j => t.writeReg (r j) (v j)) s) := by
  induction js generalizing s with
  | nil => rfl
  | cons j js ih =>
    rw [List.flatMap_cons, List.append_assoc, performAll_wrReg_append s _ (hr j), ih,
      List.foldl_cons]

/-! ### A byte register after a run of word writes -/

/-- R64: a byte register after the words of a list of indices are written in order. -/
def setWords {n m : Nat} (bytes : Vector Byte n) (v : Fin m → Word) (js : List (Fin m)) :
    Vector Byte n :=
  js.foldl (fun b j => setWordOfBytes b j.val (v j)) bytes

/-- A byte of the word `j` after a run of word writes, if `j` is among the words written. -/
theorem getElem_setWords {n m : Nat} (bytes : Vector Byte n) (v : Fin m → Word)
    {js : List (Fin m)} {j : Fin m} (hj : j ∈ js) (k : Fin 4) (h : 4 * j.val + k.val < n) :
    (setWords bytes v js)[4 * j.val + k.val] = byteOf (v j) k.val := by
  induction js using List.reverseRecOn with
  | nil => cases hj
  | append_singleton js last ih =>
    rw [setWords, List.foldl_append, List.foldl_cons, List.foldl_nil, ← setWords]
    by_cases hlast : j = last
    · subst hlast
      exact getElem_setWordOfBytes_same _ j.val (v j) k h
    · have hne : (4 * j.val + k.val) / 4 ≠ last.val := by
        have := Fin.val_ne_of_ne hlast
        omega
      rw [getElem_setWordOfBytes_ne _ last.val _ h hne]
      exact ih (by simpa [hlast] using hj)

/-- R100: byte `k` of word `j` of a byte list is the byte at index `4j + k`, 0 where it is
absent. -/
theorem byteOf_wordOfList (bytes : List Byte) (j : Nat) (k : Fin 4) :
    byteOf (wordOfList bytes j) k.val = bytes.getD (4 * j + k.val) 0 := by
  obtain ⟨h0, h1, h2, h3⟩ := byteOf_le32 (bytes.getD (4 * j) 0) (bytes.getD (4 * j + 1) 0)
    (bytes.getD (4 * j + 2) 0) (bytes.getD (4 * j + 3) 0)
  fin_cases k
  · exact h0
  · exact h1
  · exact h2
  · exact h3

/-- R100: all words of a byte register taken from a byte list. -/
theorem getElem_setWords_wordOfList {m : Nat} (register : Vector Byte (4 * m)) (bytes : List Byte)
    {a : Nat} (ha : a < 4 * m) :
    (setWords register (fun j => wordOfList bytes j.val) (List.finRange m))[a] =
      bytes.getD a 0 := by
  have hsplit : 4 * (a / 4) + a % 4 = a := Nat.div_add_mod a 4
  have hj : a / 4 < m := Nat.div_lt_of_lt_mul ha
  have hk : a % 4 < 4 := Nat.mod_lt a (by decide)
  have hword := getElem_setWords register (fun j => wordOfList bytes j.val)
    (List.mem_finRange ⟨a / 4, hj⟩) ⟨a % 4, hk⟩ (by simpa only [hsplit] using ha)
  simpa only [byteOf_wordOfList bytes (a / 4) ⟨a % 4, hk⟩, hsplit] using hword

/-! ### The directives -/

theorem State.foldl_writeReg_keyw (s : State) (v : Fin 8 → Word) (js : List (Fin 8)) :
    js.foldl (fun t j => t.writeReg (.keyw j) (v j)) s = { s with key := setWords s.key v js } :=
  List.foldl_hom (fun key => { s with key := key }) fun _ _ => rfl

theorem State.foldl_writeReg_noncew (s : State) (v : Fin 3 → Word) (js : List (Fin 3)) :
    js.foldl (fun t j => t.writeReg (.noncew j) (v j)) s =
      { s with nonce := setWords s.nonce v js } :=
  List.foldl_hom (fun nonce => { s with nonce := nonce }) fun _ _ => rfl

theorem performAll_ldKey (bytes : List Byte) (s : State) :
    performAll (ldKey bytes) s = .next { s with
      key := setWords s.key (fun j => wordOfList bytes j.val) (List.finRange 8)
      klen := BitVec.ofNat 32 bytes.length } := by
  rw [ldKey, performAll_flatMap_wrReg_append (r := .keyw) nofun,
    performAll_wrReg (r := .klen) _ _ nofun, State.foldl_writeReg_keyw]
  rfl

theorem performAll_ldNonce (bytes : List Byte) (s : State) :
    performAll (ldNonce bytes) s = .next { s with
      nonce := setWords s.nonce (fun j => wordOfList bytes j.val) (List.finRange 3)
      nlen := BitVec.ofNat 32 bytes.length } := by
  rw [ldNonce, performAll_flatMap_wrReg_append (r := .noncew) nofun,
    performAll_wrReg (r := .nlen) _ _ nofun, State.foldl_writeReg_noncew]
  rfl

/-- R30, R31: a length register after both halves of a number are written, low half first. -/
theorem setHighHalf_setLowHalf (v n : BitVec 64) :
    setHighHalf (setLowHalf v (lowHalf n)) (highHalf n) = n := by
  rw [setHighHalf, lowHalf_setLowHalf]
  apply BitVec.eq_of_toNat_eq
  rw [toNat_append_eq_add, toNat_lowHalf, toNat_highHalf, slice, slice]
  omega

/-! ### The statement -/

/-- Settles O55: a directive is a run of register writes, each of its own word or half. -/
theorem loadDirectives : Obligations.LoadDirectives := by
  intro s bytes _
  refine ⟨⟨_, performAll_ldKey bytes s, fun a => getElem_setWords_wordOfList (m := 8) _ _ a.isLt⟩,
    ⟨_, performAll_ldNonce bytes s, fun a => getElem_setWords_wordOfList (m := 3) _ _ a.isLt⟩,
    fun n => ⟨?_, ?_⟩⟩
  · rw [setIlen, performAll_wrReg_append (r := .ilenLo) _ _ nofun,
      performAll_wrReg (r := .ilenHi) _ _ nofun]
    simp only [State.writeReg, setHighHalf_setLowHalf]
  · rw [setOlen, performAll_wrReg_append (r := .olenLo) _ _ nofun,
      performAll_wrReg (r := .olenHi) _ _ nofun]
    simp only [State.writeReg, setHighHalf_setLowHalf]

end Sys2Proof.Machine
end

section
/-! PROOFS. The mixing commands: what ROUND, QROUND and DROUND do to W, when a run of them is one
command, and why quarter rounds on disjoint words commute (40_wordstate_mixing.md, R120 to R122). -/

namespace Sys2Proof.Machine

/-! ### The commands as functions of W -/

theorem exec_round_of_full {s : State} (h : s.wmask = wmaskFull) (x y z : Fin 16) (r : Fin 32) :
    exec (.round x y z r) s = .next { s with w := roundStep s.w x y z r.val, err := .ok } :=
  congrArg Host.Outcome.next (s.mixTo_of_valid _ h)

theorem exec_qround_of_full {s : State} (h : s.wmask = wmaskFull) (a b c d : Fin 16) :
    exec (.qround a b c d) s = .next { s with w := quarterRound s.w a b c d, err := .ok } :=
  congrArg Host.Outcome.next (s.mixTo_of_valid _ h)

theorem exec_dround_of_full {s : State} (h : s.wmask = wmaskFull) :
    exec .dround s = .next { s with w := doubleRound s.w, err := .ok } :=
  congrArg Host.Outcome.next (s.mixTo_of_valid _ h)

/-- R208: without WVALID a mixing command records the error, whatever it would have computed. -/
theorem exec_mixing_of_not_full {s : State} (h : s.wmask ≠ wmaskFull) {i : Instr}
    {m : WordState} (hi : exec i s = .next (s.mixTo m)) :
    exec i s = .next { s with err := .stateUninitialized } :=
  hi.trans (congrArg Host.Outcome.next (s.mixTo_of_invalid m h))

theorem execAll_cons_of_next {i : Instr} {s t : State} (h : exec i s = .next t)
    (is : List Instr) : execAll (i :: is) s = execAll is t := by
  rw [execAll, h]

/-- The QROUND command of a tuple of indices. -/
def qroundOf (t : Fin 16 × Fin 16 × Fin 16 × Fin 16) : Instr := .qround t.1 t.2.1 t.2.2.1 t.2.2.2

theorem quarterRounds_cons (m : WordState) (t : Fin 16 × Fin 16 × Fin 16 × Fin 16)
    (ts : List (Fin 16 × Fin 16 × Fin 16 × Fin 16)) :
    quarterRounds m (t :: ts) =
      quarterRounds (quarterRound m t.1 t.2.1 t.2.2.1 t.2.2.2) ts :=
  List.foldl_cons ..

/-- A run of QROUND commands computes the quarter rounds of its tuples. The empty run is left out:
it keeps ERR. -/
theorem execAll_qrounds {s : State} (h : s.wmask = wmaskFull)
    {ts : List (Fin 16 × Fin 16 × Fin 16 × Fin 16)} (hts : ts ≠ []) :
    execAll (ts.map qroundOf) s = .next { s with w := quarterRounds s.w ts, err := .ok } := by
  induction ts generalizing s with
  | nil => exact absurd rfl hts
  | cons t ts ih =>
    rw [List.map_cons, qroundOf, execAll_cons_of_next (exec_qround_of_full h ..),
      quarterRounds_cons]
    cases ts with
    | nil => rfl
    | cons u us => rw [ih (by exact h) (List.cons_ne_nil u us)]

theorem doubleRound_eq_quarterRounds (m : WordState) :
    doubleRound m = quarterRounds m (Config.columns ++ Config.diagonals) := by
  unfold doubleRound
  exact List.foldl_append.symm

/-! ### Round steps on one index, and on words that are zero -/

/-- R120 cases (d) and (f): with `y = x` the step clears the word, whatever W held. -/
theorem roundStep_self (m : WordState) (x z : Fin 16) (r : Nat) :
    roundStep m x x z r = m.set x.val 0 := by
  ext k hk : 1
  by_cases hx : k = x.val
  · subst hx
    rw [getElem_roundStep_self, Vector.getElem_set_self]
  · rw [getElem_roundStep_ne m x x z r hk hx hx, Vector.getElem_set_ne _ _ (Ne.symm hx)]

theorem quarterRound_self (m : WordState) (a : Fin 16) :
    quarterRound m a a a a = m.set a.val 0 := by
  simp only [quarterRound, roundStep_self, Vector.set_set]

/-- A sum, an exclusive or and a rotation of zeros are zero. -/
theorem roundStep_of_zero {m : WordState} {x y z : Fin 16} (hx : m[x.val] = 0)
    (hy : m[y.val] = 0) (hz : m[z.val] = 0) (r : Nat) : roundStep m x y z r = m := by
  have hset : ∀ i : Fin 16, m[i.val] = 0 → m.set i.val 0 = m := fun i hi => by
    rw [← hi, Vector.set_getElem_self]
  have hadd : add32 0 0 = 0 := rfl
  have hxor : xor32 0 0 = 0 := rfl
  have hrot : rotl32 0 r = 0 := by simp [rotl32]
  simp only [roundStep, hx, hz, hadd, hset x hx, hy, hxor, hset y hy, hrot]

/-- R121 corner case (a). -/
theorem quarterRound_of_zero {m : WordState} {a b c d : Fin 16} (ha : m[a.val] = 0)
    (hb : m[b.val] = 0) (hc : m[c.val] = 0) (hd : m[d.val] = 0) : quarterRound m a b c d = m := by
  simp only [quarterRound, roundStep_of_zero ha hd hb, roundStep_of_zero hc hb hd]

/-- R122 corner case (a). -/
theorem doubleRound_zero : doubleRound (Vector.replicate 16 0) = Vector.replicate 16 0 := by
  rw [doubleRound_eq_quarterRounds]
  refine List.foldl_fixed' (fun t => quarterRound_of_zero ?_ ?_ ?_ ?_) _ <;>
    exact Vector.getElem_replicate _

/-! ### Words a mixing function has nothing to do with -/

/-- The function neither writes word `i` nor looks at it: a write of word `i` may come before it or
after. -/
def IgnoresWord (f : WordState → WordState) (i : Fin 16) : Prop :=
  ∀ (m : WordState) (v : Word), f (m.set i.val v) = (f m).set i.val v

theorem IgnoresWord.getElem_eq {f : WordState → WordState} {i : Fin 16} (h : IgnoresWord f i)
    (m : WordState) : (f m)[i.val] = m[i.val] := by
  have hm := h m m[i.val]
  rw [Vector.set_getElem_self] at hm
  rw [hm, Vector.getElem_set_self]

theorem roundStep_ignoresWord {x y z i : Fin 16} (r : Nat) (h : i ∉ [x, y, z]) :
    IgnoresWord (roundStep · x y z r) i := by
  intro m v
  simp only [List.mem_cons, List.not_mem_nil, or_false, not_or, ← Fin.val_inj] at h
  obtain ⟨hx, hy, hz⟩ := h
  simp [roundStep, Vector.getElem_set, hx, hy, hz, Vector.set_comm _ _ hx, Vector.set_comm _ _ hy]

theorem quarterRound_ignoresWord {a b c d i : Fin 16} (h : i ∉ [a, b, c, d]) :
    IgnoresWord (quarterRound · a b c d) i := by
  have hadb : i ∉ [a, d, b] := by simp_all
  have hcbd : i ∉ [c, b, d] := by simp_all
  intro m v
  simp only [quarterRound, roundStep_ignoresWord _ hadb _ v, roundStep_ignoresWord _ hcbd _ v]

/-- A function commutes with a round step on words it has nothing to do with: the step is three
writes of such words, and the values written depend on such words alone. -/
theorem IgnoresWord.map_roundStep {f : WordState → WordState} {x y z : Fin 16}
    (hx : IgnoresWord f x) (hy : IgnoresWord f y) (hz : IgnoresWord f z) (m : WordState) (r : Nat) :
    f (roundStep m x y z r) = roundStep (f m) x y z r := by
  simp [roundStep, hx _ _, hy _ _, Vector.getElem_set, hx.getElem_eq, hy.getElem_eq, hz.getElem_eq]

theorem IgnoresWord.map_quarterRound {f : WordState → WordState} {a b c d : Fin 16}
    (h : ∀ k ∈ [a, b, c, d], IgnoresWord f k) (m : WordState) :
    f (quarterRound m a b c d) = quarterRound (f m) a b c d := by
  simp only [List.forall_mem_cons, List.not_mem_nil, false_implies, implies_true, and_true] at h
  obtain ⟨ha, hb, hc, hd⟩ := h
  simp only [quarterRound, ha.map_roundStep hd hb, hc.map_roundStep hb hd]

/-! ### The statements -/

/-- Settles O13: the three statements read word by word, with `y` another word and with `y = x`. -/
theorem roundResult : Obligations.RoundResult := by
  intro x y z r s
  refine ⟨rfl, fun h => exec_mixing_of_not_full h rfl, fun h =>
    ⟨_, exec_round_of_full h x y z r, fun k hx hy => ?_, fun hxy => ⟨?_, ?_⟩, ?_⟩⟩
  · exact getElem_roundStep_ne _ _ _ _ _ k.isLt (Fin.val_ne_of_ne hx) (Fin.val_ne_of_ne hy)
  · exact getElem_roundStep_fst _ _ hxy
  · exact getElem_roundStep_snd _ _ hxy
  · rintro rfl
    exact getElem_roundStep_self _ _ _ _

/-- Settles O14: a quarter round is four round steps by definition, and each ROUND command leaves
WMASK as it was for the next. -/
theorem qroundIsFourRounds : Obligations.QroundIsFourRounds := by
  intro a b c d s
  refine ⟨rfl, fun h => exec_mixing_of_not_full h rfl, fun h =>
    ⟨_, exec_qround_of_full h a b c d, ?_, fun k ha hb hc hd => ?_, fun ha hb hc hd => ?_⟩⟩
  · iterate 4 rw [execAll_cons_of_next (exec_round_of_full (by exact h) ..)]
    rfl
  · exact (quarterRound_ignoresWord (by simp [ha, hb, hc, hd])).getElem_eq s.w
  · rw [quarterRound_of_zero ha hb hc hd]
    exact ⟨ha, hb, hc, hd⟩

/-- Settles O15: each of the four round steps clears the word. -/
theorem qroundOnOneIndexClearsTheWord : Obligations.QroundOnOneIndexClearsTheWord := by
  intro a s h
  rw [exec_qround_of_full h, quarterRound_self]

/-- Settles O16: the eight commands are the run of the column tuples and then the diagonal ones. -/
theorem droundIsEightQrounds : Obligations.DroundIsEightQrounds := by
  intro s
  refine ⟨fun h => exec_mixing_of_not_full h rfl, fun h =>
    ⟨_, exec_dround_of_full h, ?_, fun hw => ?_⟩⟩
  · rw [doubleRound_eq_quarterRounds]
    exact execAll_qrounds h (ts := Config.columns ++ Config.diagonals) (List.cons_ne_nil _ _)
  · rw [hw, doubleRound_zero]

/-- Settles O17: each quarter round has nothing to do with the words of the other. -/
theorem disjointQuarterRoundsCommute : Obligations.DisjointQuarterRoundsCommute := by
  intro a b c d e f g h s hdisj hfull
  have hcomm : quarterRound (quarterRound s.w a b c d) e f g h =
      quarterRound (quarterRound s.w e f g h) a b c d :=
    IgnoresWord.map_quarterRound (f := (quarterRound · e f g h))
      (fun k hk => quarterRound_ignoresWord (hdisj k hk)) s.w
  refine ⟨_, execAll_qrounds hfull (ts := [(a, b, c, d), (e, f, g, h)]) nofun, ?_⟩
  refine (execAll_qrounds hfull (ts := [(e, f, g, h), (a, b, c, d)]) nofun).trans ?_
  exact congrArg (fun m => Host.Outcome.next { s with w := m, err := .ok }) hcomm.symm

end Sys2Proof.Machine
end

section
/-! PROOFS. The block commands: what INIT, BLOCK and SER answer in each case, the words they put in W
and the bytes they put in OUT (41_wordstate_block.md, R140 to R150). -/

namespace Sys2Proof.Machine

/-! ### The cases of INIT, BLOCK and SER -/

theorem State.lengthsOk_eq_false {s : State} (h : s.klen ≠ 32#32 ∨ s.nlen ≠ 12#32) :
    s.lengthsOk = false := by
  rw [← Bool.not_eq_true, s.lengthsOk_iff, not_and_or]
  exact h

theorem exec_init_of_bad_lengths {s : State} (h : s.klen ≠ 32#32 ∨ s.nlen ≠ 12#32) :
    exec .init s = .next { s with err := .invalidLength } := by
  rw [exec, execInit, State.lengthsOk_eq_false h]
  rfl

theorem exec_block_of_bad_lengths {s : State} (h : s.klen ≠ 32#32 ∨ s.nlen ≠ 12#32) :
    exec .block s = .next { s with err := .invalidLength } := by
  rw [exec, execBlock, State.lengthsOk_eq_false h]
  rfl

theorem exec_init_of_lengths {s : State} (hk : s.klen = 32#32) (hn : s.nlen = 12#32) :
    exec .init s =
      .next { s with w := initWords s.key s.nonce s.ictr, wmask := wmaskFull, err := .ok } :=
  execInit_of_lengths s (s.lengthsOk_iff.mpr ⟨hk, hn⟩)

theorem exec_block_of_lengths {s : State} (hk : s.klen = 32#32) (hn : s.nlen = 12#32) :
    exec .block s =
      .next { s with
        w := blockWords s.key s.nonce s.ictr, wmask := wmaskFull,
        snap := Vector.replicate 16 0, err := .ok } := by
  rw [exec, execBlock_of_lengths s (s.lengthsOk_iff.mpr ⟨hk, hn⟩), s.generate_eq]
  rfl

/-- R150: the written mask is looked at first. -/
theorem exec_ser_of_not_full {s : State} (h : s.wmask ≠ wmaskFull) :
    exec .ser s = .next { s with err := .stateUninitialized } := by
  have hv : s.wvalid = false := by simpa [State.wvalid] using h
  rw [exec, execSer, hv]
  rfl

theorem exec_ser_of_olen_ne {s : State} (h : s.wmask = wmaskFull) (ho : s.olen ≠ 64#64) :
    exec .ser s = .next { s with err := .invalidLength } := by
  rw [exec, execSer, s.wvalid_iff.mpr h, if_neg (by decide), if_pos ho]
  rfl

theorem exec_ser_of_ready {s : State} (h : s.wmask = wmaskFull) (ho : s.olen = 64#64) :
    exec .ser s =
      .next { s with
        outBuf := (s.memWriteList 0 (serBytes s.w).toList).outBuf, err := .ok } := by
  rw [exec, execSer_of_ready s h ho, State.memWriteList_eq]
  rfl

/-! ### The words of INIT and BLOCK -/

theorem getElem_initWords_key (key : Vector Byte 32) (nonce : Vector Byte 12) (ctr : Word)
    (j : Fin 8) : (initWords key nonce ctr)[4 + j.val] = wordOfBytes key j.val := by
  unfold initWords
  fin_cases j <;> rfl

theorem getElem_initWords_nonce (key : Vector Byte 32) (nonce : Vector Byte 12) (ctr : Word)
    (j : Fin 3) : (initWords key nonce ctr)[13 + j.val] = wordOfBytes nonce j.val := by
  unfold initWords
  fin_cases j <;> rfl

/-- R142, R143: ten double rounds, and the feed-forward word by word. -/
theorem getElem_blockWords (key : Vector Byte 32) (nonce : Vector Byte 12) (ctr : Word) {i : Nat}
    (hi : i < 16) :
    (blockWords key nonce ctr)[i] =
      add32 (doubleRounds 10 (initWords key nonce ctr))[i] (initWords key nonce ctr)[i] := by
  unfold blockWords rounds
  exact getElem_addWords _ _ hi

/-- A run of DROUND commands computes as many double rounds. The empty run is left out: it keeps
ERR. -/
theorem execAll_drounds {s : State} (h : s.wmask = wmaskFull) (k : Nat) :
    execAll (List.replicate (k + 1) .dround) s =
      .next { s with w := doubleRounds (k + 1) s.w, err := .ok } := by
  induction k generalizing s with
  | zero => exact execAll_cons_of_next (exec_dround_of_full h) []
  | succ k ih =>
    rw [List.replicate_succ, execAll_cons_of_next (exec_dround_of_full h), ih (by exact h)]
    rfl

/-! ### The bytes of SER -/

/-- R150: the serialized matrix stands in `OUT[0..63]`. -/
theorem State.read_memWriteList_serBytes (s : State) (m : WordState) {x : Nat} (hx : x < 64) :
    (s.memWriteList 0 (serBytes m).toList).outBuf.read x = (serBytes m)[x] := by
  have hlen : (serBytes m).toList.length = 64 := Vector.length_toList
  rw [State.memWriteList_read _ _ _ (by omega), if_pos (by omega), Nat.sub_zero,
    List.getD_eq_getElem _ _ (by omega), Vector.getElem_toList]

/-! ### The statements -/

/-- Settles O19: the words of InitWords, the key's and the nonce's read as four bytes each. -/
theorem initResult : Obligations.InitResult := by
  intro s
  refine ⟨exec_init_of_bad_lengths, fun hk hn =>
    ⟨_, exec_init_of_lengths hk hn, ?c0, ?c1, ?c2, ?c3, fun j => ?key, ?counter, fun j => ?nonce⟩⟩
  case key => rw [getElem_initWords_key, wordOfBytes_eq_le32 _ (by omega)]
  case nonce => rw [getElem_initWords_nonce, wordOfBytes_eq_le32 _ (by omega)]
  all_goals
    unfold initWords
    rfl

/-- Settles O20: the body of BLOCK ends with BlockWords in W, which is read word by word. -/
theorem blockResult : Obligations.BlockResult := by
  intro s
  exact ⟨exec_block_of_bad_lengths, fun hk hn =>
    ⟨_, exec_block_of_lengths hk hn, fun i => getElem_blockWords _ _ _ i.isLt, rfl⟩⟩

/-- Settles O21: INIT fills WMASK, so the DROUND commands run, and ten of them are the rounds of
BLOCK. -/
theorem blockIsTheHostSequence : Obligations.BlockIsTheHostSequence := by
  intro s hk hn
  exact ⟨_, _, _, exec_init_of_lengths hk hn, execAll_drounds (by rfl) 9,
    fun i => getElem_blockWords _ _ _ i.isLt, exec_block_of_lengths hk hn⟩

/-- Settles O22: byte `k` of word `i` is byte `4i + k` of the serialized matrix. -/
theorem serResult : Obligations.SerResult := by
  intro s
  refine ⟨exec_ser_of_not_full, exec_ser_of_olen_ne, fun h ho =>
    ⟨_, exec_ser_of_ready h ho, fun i k => ?_, Executed.ser.ser_frame.2⟩⟩
  rw [State.read_memWriteList_serBytes _ _ (by omega), getElem_serBytes_word _ i.isLt k.isLt]

/-- Settles O23: BLOCK fills WMASK and keeps OLEN, so SER serializes the BlockWords it left. -/
theorem blockThenSerGivesTheKeystream : Obligations.BlockThenSerGivesTheKeystream := by
  intro s hk hn ho
  have hblock := exec_block_of_lengths hk hn
  refine ⟨_, (execAll_cons_of_next hblock [.ser]).trans
    (execAll_cons_of_next (exec_ser_of_ready (by rfl) (by exact ho)) []), rfl, fun j => ?_⟩
  unfold keystreamBlock
  exact State.read_memWriteList_serBytes _ _ j.isLt

end Sys2Proof.Machine
end

section
/-! PROOFS. ENC and DEC as one transition: which check fails, the bytes stored, and the laws of the
keystream (42_keystream_engine.md, R160 to R165, R174, R177 to R179). -/

namespace Sys2Proof.Machine

/-! ### Chunks (R164) -/

theorem chunkCount_eq_of_ne_zero {len : Nat} (h : len ≠ 0) :
    chunkCount len = 1 + (len - 1) / 64 := by
  unfold chunkCount
  omega

theorem chunkLen_of_not_last {len i : Nat} (h : i + 1 < chunkCount len) : chunkLen len i = 64 := by
  unfold chunkCount at h
  unfold chunkLen
  omega

theorem chunkLen_of_last {len i : Nat} (h : i + 1 = chunkCount len) :
    chunkLen len i = len - 64 * (chunkCount len - 1) ∧
      1 ≤ chunkLen len i ∧ chunkLen len i ≤ 64 := by
  unfold chunkCount at h ⊢
  unfold chunkLen
  omega

/-- The addresses of chunk `i` are those below the length whose quotient by 64 is `i`. -/
theorem mem_chunk_iff {len a : Nat} (h : a < len) (i : Nat) :
    i < chunkCount len ∧ 64 * i ≤ a ∧ a < 64 * i + chunkLen len i ↔ i = a / 64 := by
  unfold chunkCount chunkLen
  omega

/-! ### The checks (R165, R173, R209) -/

theorem exec_enc_or_dec {i : Instr} (hi : i = .enc ∨ i = .dec) (s : State) :
    exec i s = .next s.process := by
  rcases hi with rfl | rfl <;> rfl

/-- R211: a failed check is recorded in ERR. -/
theorem exec_of_check_failed {i : Instr} (hi : i = .enc ∨ i = .dec) {s : State} {e : ErrCode}
    (h : s.processCheck = some e) : exec i s = .next { s with err := e } := by
  rw [exec_enc_or_dec hi, State.process_of_error s h]
  rfl

theorem State.processCheck_of_bad_lengths {s : State} (h : s.klen ≠ 32#32 ∨ s.nlen ≠ 12#32) :
    s.processCheck = some .invalidLength := by
  rw [State.processCheck, State.lengthsOk_eq_false h]
  rfl

section
variable {s : State} (hk : s.klen = 32#32) (hn : s.nlen = 12#32)
include hk hn

theorem State.processCheck_of_mismatch (ho : s.olen ≠ s.ilen) :
    s.processCheck = some .lengthMismatch := by
  rw [State.processCheck, s.lengthsOk_iff.mpr ⟨hk, hn⟩, if_neg (by decide), if_pos ho]

theorem State.processCheck_of_overflow (ho : s.olen = s.ilen)
    (hc : counterOverflows s.ictr (chunkCount s.ilen.toNat) = true) :
    s.processCheck = some .counterOverflow := by
  rw [State.processCheck, s.lengthsOk_iff.mpr ⟨hk, hn⟩, if_neg (by decide),
    if_neg (by simpa using ho), if_pos hc]

end

/-- R165: the counters rise, so the last chunk's is the one that overflows first. -/
theorem counterOverflows_iff_exists (c : Word) (n : Nat) :
    counterOverflows c n = true ↔ ∃ k, k < n ∧ c.toNat + k > 2 ^ 32 - 1 := by
  rw [counterOverflows_eq_true_iff]
  constructor
  · intro h
    exact ⟨n - 1, by omega, by omega⟩
  · rintro ⟨k, hk, hc⟩
    omega

/-- R160: passed checks, then the stores, the wipe and the end of the sequencer. -/
theorem exec_of_ready {i : Instr} (hi : i = .enc ∨ i = .dec) {s : State} (h : s.ProcessReady) :
    exec i s = .next { s with
      w := Vector.replicate 16 0, wmask := 0, snap := Vector.replicate 16 0,
      ks := Vector.replicate 64 0, err := .ok,
      seq := ⟨.idle, chunkCount s.ilen.toNat, chunkCount s.ilen.toNat⟩,
      outBuf := s.process.outBuf } := by
  rw [exec_enc_or_dec hi, State.process_of_ok s (s.processReady_iff.mp h)]

theorem State.err_process_of_ready {s : State} (h : s.ProcessReady) : s.process.err = .ok := by
  rw [State.process_of_ok s (s.processReady_iff.mp h)]

/-- R160: ERR is 0 only after the checks passed. -/
theorem State.processReady_of_err {s : State} (h : s.process.err = .ok) : s.ProcessReady := by
  rw [State.processReady_iff]
  cases hc : s.processCheck with
  | none => rfl
  | some e =>
    rw [State.process_of_error s hc, State.err_raise] at h
    rcases s.processCheck_mem hc with rfl | rfl | rfl <;> simp at h

/-! ### The bytes stored (R160, R162) -/

/-- R144, R162: the keystream byte at an address, from the block of the address's chunk. -/
def State.keystreamByte (s : State) (a : Nat) : Byte :=
  byteAt (keystreamBlock s.key s.nonce (BitVec.ofNat 32 (s.ictr.toNat + a / 64))) (a % 64)

/-- R162: every byte below ILEN is the input byte xor the keystream byte. -/
theorem State.read_process {s : State} (h : s.ProcessReady) {a : Nat} (ha : a < s.ilen.toNat) :
    s.process.outBuf.read a = xor8 (s.inBuf.read a) (s.keystreamByte a) := by
  rw [State.process_read s (s.processReady_iff.mp h), if_pos ha]
  rfl

theorem State.keystreamByte_of_chunk (s : State) (k : Nat) {j : Nat} (hj : j < 64) :
    s.keystreamByte (64 * k + j) =
      byteAt (keystreamBlock s.key s.nonce (BitVec.ofNat 32 (s.ictr.toNat + k))) j := by
  have hdiv : (64 * k + j) / 64 = k := by omega
  have hmod : (64 * k + j) % 64 = j := by omega
  rw [State.keystreamByte, hdiv, hmod]

/-- R178: a command with the counter of chunk `k` stores what the whole message has from that chunk
on. -/
theorem State.read_process_later {s t : State} (hs : s.ProcessReady) (ht : t.ProcessReady)
    {k a : Nat} (hkey : t.key = s.key) (hnonce : t.nonce = s.nonce)
    (hictr : t.ictr.toNat = s.ictr.toNat + k) (hin : t.inBuf.read a = s.inBuf.read (64 * k + a))
    (hat : a < t.ilen.toNat) (has : 64 * k + a < s.ilen.toNat) :
    t.process.outBuf.read a = s.process.outBuf.read (64 * k + a) := by
  have hks : t.keystreamByte a = s.keystreamByte (64 * k + a) := by
    have hctr : t.ictr.toNat + a / 64 = s.ictr.toNat + (64 * k + a) / 64 := by omega
    have hmod : a % 64 = (64 * k + a) % 64 := by omega
    rw [State.keystreamByte, hkey, hnonce, hctr, hmod, State.keystreamByte]
  rw [State.read_process ht hat, State.read_process hs has, hin, hks]

theorem xor8_xor8_cancel (a b : Byte) : xor8 (xor8 a b) b = a := by
  rw [xor8, xor8, BitVec.xor_assoc, BitVec.xor_self, BitVec.xor_zero]

theorem zero_xor8 (b : Byte) : xor8 0 b = b := BitVec.zero_xor

/-- The registers that ENC and DEC check, after the command and with another IN: as before. -/
theorem State.ProcessReady.after_process {s : State} (h : s.ProcessReady) (buf : Memory) :
    ({ s.process with inBuf := buf } : State).ProcessReady := by
  rw [State.process_of_ok s (s.processReady_iff.mp h)]
  exact ⟨h.keyLength, h.nonceLength, h.sameLength, h.counterFits⟩

theorem State.ProcessReady.counter_last {s : State} (h : s.ProcessReady) (hpos : 0 < s.ilen.toNat) :
    s.ictr.toNat + (s.ilen.toNat + 63) / 64 - 1 ≤ 2 ^ 32 - 1 := by
  rcases h.counterFits with hzero | hfits
  · rw [hzero] at hpos
    exact absurd hpos (by decide)
  · exact hfits

/-- A message of the same key and nonce lengths is ready when the last chunk's counter fits. -/
theorem State.ProcessReady.of_length {s t : State} (h : s.ProcessReady) (hk : t.klen = s.klen)
    (hn : t.nlen = s.nlen) {len : Nat} (hlen : len < 2 ^ 64) (hilen : t.ilen = BitVec.ofNat 64 len)
    (holen : t.olen = BitVec.ofNat 64 len)
    (hfits : 0 < len → t.ictr.toNat + (len + 63) / 64 - 1 ≤ 2 ^ 32 - 1) : t.ProcessReady := by
  refine ⟨hk.trans h.keyLength, hn.trans h.nonceLength, holen.trans hilen.symm, ?_⟩
  rcases Nat.eq_zero_or_pos len with rfl | hpos
  · exact .inl hilen
  · rw [hilen, toNat_addr hlen]
    exact .inr (hfits hpos)

/-! ### The statements -/

/-- Settles O24: the checks in their order, then the bytes that `process_read` gives. -/
theorem encAndDecResult : Obligations.EncAndDecResult := by
  intro i s hi
  refine ⟨fun h => exec_of_check_failed hi (State.processCheck_of_bad_lengths h),
    fun hk hn ho => exec_of_check_failed hi (State.processCheck_of_mismatch hk hn ho),
    fun hk hn ho hpos hctr => exec_of_check_failed hi (State.processCheck_of_overflow hk hn ho
      ((counterOverflows_eq_true_iff _ _).mpr ⟨hpos, hctr⟩)), fun h => ?_⟩
  refine ⟨_, _, exec_of_ready hi h, rfl, fun k j _ hj => ?_, fun a ha => ?_⟩
  · rw [State.read_process h (by omega), State.keystreamByte_of_chunk s k (by omega)]
  · rw [State.process_read s (s.processReady_iff.mp h), if_neg (by omega)]

/-- Settles O25: both commands are `State.process`. -/
theorem decIsTheTransitionOfEnc : Obligations.DecIsTheTransitionOfEnc := fun s =>
  (exec_enc_or_dec (.inr rfl) s).trans (exec_enc_or_dec (.inl rfl) s).symm

/-- Settles O26: the chunk of an address is its quotient by 64. -/
theorem chunksCoverTheInput : Obligations.ChunksCoverTheInput := by
  intro len hlen
  refine ⟨rfl, fun h => by rw [h]; rfl, chunkCount_eq_of_ne_zero, by unfold chunkCount; omega,
    fun _ _ => rfl, fun _ => chunkLen_of_not_last, fun _ => chunkLen_of_last, fun a ha => ?_⟩
  exact ⟨a / 64, (mem_chunk_iff ha _).mpr rfl, fun i => (mem_chunk_iff ha i).mp⟩

/-- Settles O27: with right lengths the overflow is the only check left. -/
theorem counterOverflowExactlyWhenAChunkNeedsIt :
    Obligations.CounterOverflowExactlyWhenAChunkNeedsIt := by
  intro i s hi hk hn ho
  have raises : (∃ k, k < chunkCount s.ilen.toNat ∧ s.ictr.toNat + k > 2 ^ 32 - 1) →
      exec i s = .next { s with err := .counterOverflow } := fun h =>
    exec_of_check_failed hi
      (State.processCheck_of_overflow hk hn ho ((counterOverflows_iff_exists _ _).mpr h))
  refine ⟨⟨?_, fun h => ⟨_, raises h, rfl⟩⟩, raises⟩
  rintro ⟨t, ht, herr⟩
  obtain rfl := Host.Outcome.next.inj ((exec_enc_or_dec hi s).symm.trans ht)
  refine (counterOverflows_iff_exists _ _).mp (eq_true_of_ne_false fun hc => ?_)
  have hready : s.ProcessReady := s.processReady_iff.mpr
    (s.processCheck_eq_none.mpr ⟨s.lengthsOk_iff.mpr ⟨hk, hn⟩, ho, hc⟩)
  rw [State.err_process_of_ready hready] at herr
  exact absurd herr (by decide)

/-- Settles O28: an empty input has no chunk. -/
theorem emptyInputCompletes : Obligations.EmptyInputCompletes := by
  intro i s hi hk hn hilen holen
  have hready : s.ProcessReady := ⟨hk, hn, holen.trans hilen.symm, .inl hilen⟩
  have hcount : chunkCount s.ilen.toNat = 0 := by rw [hilen]; rfl
  refine ⟨⟨.idle, 0, 0⟩, rfl, (exec_enc_or_dec hi s).trans ?_⟩
  rw [State.process_of_ok s (s.processReady_iff.mp hready), hcount]
  rfl

/-- Settles O29: the checks come before every store. -/
theorem encAndDecAreAllOrNothing : Obligations.EncAndDecAreAllOrNothing := by
  intro i s hi
  refine ⟨_, exec_enc_or_dec hi s, ?_⟩
  cases hc : s.processCheck with
  | none =>
    have hready := s.processReady_iff.mpr hc
    exact .inl ⟨State.err_process_of_ready hready, fun a => State.read_process hready⟩
  | some e =>
    rw [State.process_of_error s hc]
    exact .inr ⟨s.processCheck_mem hc, fun _ => rfl⟩

/-- Settles O30: the second command meets the registers of the first, so the same keystream. -/
theorem decryptionRestoresTheInput : Obligations.DecryptionRestoresTheInput := by
  intro i j s t buf hi hj ht herr hbuf
  obtain rfl := Host.Outcome.next.inj ((exec_enc_or_dec hi s).symm.trans ht)
  have hready := State.processReady_of_err herr
  have hready' := hready.after_process buf
  obtain ⟨hnonce, -, hictr, hilen, -, -, hkey⟩ := (exec_executed ht).keeps_operands
  have hkey := (hkey (by rcases hi with rfl | rfl <;> simp)).1
  refine ⟨_, exec_enc_or_dec hj _, State.err_process_of_ready hready', fun a ha => ?_⟩
  have hks : State.keystreamByte { s.process with inBuf := buf } a = s.keystreamByte a := by
    rw [State.keystreamByte, hkey, hnonce, hictr, State.keystreamByte]
  rw [State.read_process hready' (by rw [hilen]; exact ha), hks, hbuf a ha,
    State.read_process hready ha, xor8_xor8_cancel]

/-- Settles O31: a zero byte xor the keystream byte. -/
theorem zeroInputGivesTheKeystream : Obligations.ZeroInputGivesTheKeystream := by
  intro s hready hzero
  refine ⟨_, exec_enc_or_dec (.inl rfl) s, State.err_process_of_ready hready, fun a ha => ?_⟩
  rw [State.read_process hready ha, hzero a ha, zero_xor8, State.keystreamByte]

/-- Settles O32: the second piece's addresses and counters are both `k` chunks behind. -/
theorem messageMayBeSplitAtAChunk : Obligations.MessageMayBeSplitAtAChunk := by
  intro s k buf hready hk hctr hbuf
  have hlt := s.ilen.isLt
  have hlast := hready.counter_last
  have hfst : ({ s with ilen := BitVec.ofNat 64 (64 * k), olen := BitVec.ofNat 64 (64 * k) } :
      State).ProcessReady :=
    hready.of_length rfl rfl (by omega) rfl rfl (by intro hpos; dsimp only; omega)
  have hictr : (BitVec.ofNat 32 (s.ictr.toNat + k)).toNat = s.ictr.toNat + k := by
    rw [BitVec.toNat_ofNat, Nat.mod_eq_of_lt (by omega)]
  have hsnd : ({ s with
      ictr := BitVec.ofNat 32 (s.ictr.toNat + k)
      ilen := BitVec.ofNat 64 (s.ilen.toNat - 64 * k)
      olen := BitVec.ofNat 64 (s.ilen.toNat - 64 * k)
      inBuf := buf } : State).ProcessReady :=
    hready.of_length rfl rfl (by omega) rfl rfl (by intro hpos; rw [hictr]; omega)
  refine ⟨_, _, _, exec_enc_or_dec (.inl rfl) _, State.err_process_of_ready hready,
    exec_enc_or_dec (.inl rfl) _, State.err_process_of_ready hfst,
    exec_enc_or_dec (.inl rfl) _, State.err_process_of_ready hsnd, fun a ha => ?_, fun a ha => ?_⟩
  · rw [State.read_process hfst (by rw [toNat_addr (by omega)]; exact ha),
      State.read_process hready (by omega)]
    rfl
  · exact State.read_process_later hready hsnd rfl rfl hictr (hbuf a ha)
      (by rw [toNat_addr (by omega)]; exact ha) (by omega)

end Sys2Proof.Machine
end

section
/-! PROOFS. The block-counter state machine: what one phase step does, what the four phases of a
chunk do together, and the run from IDLE to IDLE (42_keystream_engine.md, R166 to R176). -/

namespace Sys2Proof.Machine

/-! ### Phase steps -/

section
variable {s : State}

theorem State.phaseStep_check (h : s.seq.phase = .check) : s.phaseStep = s.phaseCheck := by
  rw [State.phaseStep, h]

theorem State.phaseStep_gen (h : s.seq.phase = .gen) : s.phaseStep = s.phaseGen := by
  rw [State.phaseStep, h]

theorem State.phaseStep_kser (h : s.seq.phase = .kser) : s.phaseStep = s.phaseKser := by
  rw [State.phaseStep, h]

theorem State.phaseStep_xor (h : s.seq.phase = .xor) : s.phaseStep = s.phaseXor := by
  rw [State.phaseStep, h]

theorem State.phaseStep_scrub (h : s.seq.phase = .scrub) : s.phaseStep = s.phaseScrub := by
  rw [State.phaseStep, h]

theorem State.phaseStep_final (h : s.seq.phase = .final) : s.phaseStep = s.phaseFinal := by
  rw [State.phaseStep, h]

end

theorem State.phaseSteps_add (j k : Nat) (s : State) :
    State.phaseSteps (j + k) s = State.phaseSteps k (State.phaseSteps j s) := by
  induction j generalizing s with
  | zero => rw [Nat.zero_add, State.phaseSteps]
  | succ j ih => rw [Nat.add_right_comm, State.phaseSteps, ih, State.phaseSteps]

/-! The phases GEN, KSER and XOR name their successor (R166). -/

@[simp] theorem State.seq_phaseGen (s : State) :
    s.phaseGen.seq = ⟨.kser, s.seq.i, s.seq.n⟩ := rfl
@[simp] theorem State.seq_phaseKser (s : State) :
    s.phaseKser.seq = ⟨.xor, s.seq.i, s.seq.n⟩ := rfl
@[simp] theorem State.seq_phaseXor (s : State) :
    s.phaseXor.seq = ⟨.scrub, s.seq.i, s.seq.n⟩ := by
  rw [State.phaseXor, State.xorChunk_eq]

/-- R173: a failed check goes back to IDLE with the error recorded. -/
theorem State.phaseCheck_of_error {s : State} {e : ErrCode} (h : s.processCheck = some e) :
    s.phaseCheck = { s.raise e with seq := ⟨.idle, s.seq.i, s.seq.n⟩ } := by
  rw [State.phaseCheck, h]

/-- R173: passed checks latch the chunk count and go to the first chunk, if there is one. -/
theorem State.phaseCheck_of_ok {s : State} (h : s.processCheck = none) :
    s.phaseCheck = { s with
      seq :=
        ⟨if chunkCount s.ilen.toNat = 0 then .final else .gen, 0, chunkCount s.ilen.toNat⟩ } := by
  rw [State.phaseCheck, h]

theorem State.processCheck_startSequencer (s : State) :
    s.startSequencer.processCheck = s.processCheck := rfl

/-! ### The four phases of a chunk -/

/-- R170: the bytes stored for a chunk depend on IN, KS and OUT alone. -/
theorem State.outBuf_xorChunk_congr {s t : State} (hin : s.inBuf = t.inBuf) (hks : s.ks = t.ks)
    (hout : s.outBuf = t.outBuf) (i len : Nat) :
    (s.xorChunk i len).outBuf = (t.xorChunk i len).outBuf := by
  have keeps (u : State) (j : Nat) :
      (u.xorChunk i j).inBuf = u.inBuf ∧ (u.xorChunk i j).ks = u.ks := by
    rw [State.xorChunk_eq]
    exact ⟨rfl, rfl⟩
  induction len with
  | zero => exact hout
  | succ j ih =>
    simp only [State.xorChunk, State.outBuf_memWrite, State.memRead, keeps, hin, hks, ih]

/-- R160: the bytes stored for a chunk do not depend on W, WMASK, S, KS or SEQ. -/
theorem State.outBuf_processChunk_congr {s t : State} (hkey : s.key = t.key)
    (hnonce : s.nonce = t.nonce) (hictr : s.ictr = t.ictr) (hilen : s.ilen = t.ilen)
    (hin : s.inBuf = t.inBuf) (hout : s.outBuf = t.outBuf) (i : Nat) :
    (s.processChunk i).outBuf = (t.processChunk i).outBuf := by
  rw [State.outBuf_processChunk, State.outBuf_processChunk, hilen]
  refine State.outBuf_xorChunk_congr (by exact hin) ?_ (by exact hout) i _
  rw [State.ks_loadKeystream, State.ks_loadKeystream, hkey, hnonce, State.counterWord, hictr,
    State.counterWord]

theorem State.phaseStep_phaseGen (s : State) : s.phaseGen.phaseStep = s.phaseGen.phaseKser :=
  State.phaseStep_kser (by rw [State.seq_phaseGen])

theorem State.phaseStep_phaseKser (s : State) : s.phaseKser.phaseStep = s.phaseKser.phaseXor :=
  State.phaseStep_xor (by rw [State.seq_phaseKser])

theorem State.phaseStep_phaseXor (s : State) : s.phaseXor.phaseStep = s.phaseXor.phaseScrub :=
  State.phaseStep_scrub (by rw [State.seq_phaseXor])

theorem State.phaseSteps_four_of_gen {s : State} (h : s.seq.phase = .gen) :
    State.phaseSteps 4 s = s.phaseGen.phaseKser.phaseXor.phaseScrub := by
  simp only [State.phaseSteps, State.phaseStep_gen h, State.phaseStep_phaseGen,
    State.phaseStep_phaseKser, State.phaseStep_phaseXor]

/-- R176: no phase of a chunk is IDLE. -/
theorem State.phaseSteps_ne_idle_of_gen {s : State} (h : s.seq.phase = .gen) {r : Nat}
    (hr : r < 4) : (State.phaseSteps r s).seq.phase ≠ .idle := by
  match r with
  | 0 => simp [State.phaseSteps, h]
  | 1 => simp [State.phaseSteps, State.phaseStep_gen h]
  | 2 => simp [State.phaseSteps, State.phaseStep_gen h, State.phaseStep_phaseGen]
  | 3 =>
    simp [State.phaseSteps, State.phaseStep_gen h, State.phaseStep_phaseGen,
      State.phaseStep_phaseKser]

/-- R168 to R171: GEN, KSER, XOR and SCRUB store what one turn of the atomic loop stores. -/
theorem State.chunk_phases_eq (s : State) :
    s.phaseGen.phaseKser.phaseXor.phaseScrub =
      { s with
        w := Vector.replicate 16 0, wmask := 0, snap := Vector.replicate 16 0,
        ks := Vector.replicate 64 0
        seq := ⟨if s.seq.i + 1 < s.seq.n then .gen else .final, s.seq.i + 1, s.seq.n⟩
        outBuf := (s.processChunk s.seq.i).outBuf } := by
  have hks : s.phaseGen.phaseKser.ks = (s.loadKeystream s.seq.i).ks := by
    rw [State.ks_loadKeystream]
    unfold keystreamBlock
    rw [← State.w_generate]
    rfl
  have hout : (s.phaseGen.phaseKser.xorChunk s.seq.i (chunkLen s.ilen.toNat s.seq.i)).outBuf =
      (s.processChunk s.seq.i).outBuf := by
    rw [State.outBuf_processChunk]
    exact State.outBuf_xorChunk_congr (by rfl) hks (by rfl) _ _
  rw [← hout, State.phaseScrub, State.phaseXor, State.xorChunk_eq]
  rfl

/-! ### The run (R166, R175, R176) -/

/-- Before chunk `k`: the chunks below `k` are stored, SEQ stands at chunk `k` or, past the last
one, in FINAL, the scratch W, WMASK, S and KS may hold anything and all else is as it was in `s`.
`atChunk_phaseSteps` ties it to the machine. -/
def State.AtChunk (s : State) (k : Nat) (t : State) : Prop :=
  t = { s with
    w := t.w, wmask := t.wmask, snap := t.snap, ks := t.ks
    seq := ⟨if k < chunkCount s.ilen.toNat then .gen else .final, k, chunkCount s.ilen.toNat⟩
    outBuf := (s.processChunks k).outBuf }

theorem State.AtChunk.seq_eq {s t : State} {k : Nat} (h : s.AtChunk k t) :
    t.seq = ⟨if k < chunkCount s.ilen.toNat then .gen else .final, k, chunkCount s.ilen.toNat⟩ :=
  congrArg State.seq h

theorem State.AtChunk.phase_gen {s t : State} {k : Nat} (h : s.AtChunk k t)
    (hk : k < chunkCount s.ilen.toNat) : t.seq.phase = .gen := by
  rw [h.seq_eq, if_pos hk]

theorem State.AtChunk.phase_final {s t : State} (h : s.AtChunk (chunkCount s.ilen.toNat) t) :
    t.seq.phase = .final := by
  rw [h.seq_eq, if_neg (Nat.lt_irrefl _)]

theorem State.phaseSteps_one_startSequencer (s : State) :
    State.phaseSteps 1 s.startSequencer = s.startSequencer.phaseCheck :=
  State.phaseStep_check (s := s.startSequencer) rfl

/-- R173: CHECK stands before the first chunk. -/
theorem State.atChunk_zero {s : State} (hcheck : s.processCheck = none) :
    s.AtChunk 0 (State.phaseSteps 1 s.startSequencer) := by
  have hphase : (if chunkCount s.ilen.toNat = 0 then Phase.final else .gen) =
      if 0 < chunkCount s.ilen.toNat then .gen else .final := by
    simp only [Nat.pos_iff_ne_zero, ite_not]
  rw [State.phaseSteps_one_startSequencer,
    State.phaseCheck_of_ok (s.processCheck_startSequencer.trans hcheck), State.ilen_startSequencer,
    hphase]
  rfl

/-- R168 to R171: the four phases of chunk `k` stand before the next one. -/
theorem State.AtChunk.four_steps {s t : State} {k : Nat} (h : s.AtChunk k t)
    (hk : k < chunkCount s.ilen.toNat) : s.AtChunk (k + 1) (State.phaseSteps 4 t) := by
  have hout : (t.processChunk k).outBuf = (s.processChunks (k + 1)).outBuf := by
    rw [State.processChunks, h, State.processChunks_eq]
    apply State.outBuf_processChunk_congr <;> rfl
  have hseq := h.seq_eq
  rw [State.phaseSteps_four_of_gen (h.phase_gen hk), State.chunk_phases_eq, hseq, hout, h]
  rfl

/-- R176: four phase steps per chunk. -/
theorem State.atChunk_phaseSteps {s : State} (hcheck : s.processCheck = none) {k : Nat}
    (hk : k ≤ chunkCount s.ilen.toNat) :
    s.AtChunk k (State.phaseSteps (1 + 4 * k) s.startSequencer) := by
  induction k with
  | zero => exact State.atChunk_zero hcheck
  | succ k ih =>
    rw [Nat.mul_succ, ← Nat.add_assoc, State.phaseSteps_add]
    exact (ih (by omega)).four_steps hk

/-- R172: FINAL wipes, completes and leaves what the atomic transition leaves. -/
theorem State.AtChunk.phaseFinal_eq {s t : State} (h : s.AtChunk (chunkCount s.ilen.toNat) t)
    (hcheck : s.processCheck = none) : t.phaseFinal = s.process := by
  rw [State.process_of_ok s hcheck, h]
  rfl

/-- R175: the run from IDLE back to IDLE is the atomic transition. -/
theorem State.phaseSteps_eq_process {s : State} (hcheck : s.processCheck = none) :
    State.phaseSteps (2 + 4 * chunkCount s.ilen.toNat) s.startSequencer = s.process := by
  have hlast := State.atChunk_phaseSteps hcheck (Nat.le_refl _)
  have hsteps : 2 + 4 * chunkCount s.ilen.toNat = 1 + 4 * chunkCount s.ilen.toNat + 1 := by omega
  rw [hsteps, State.phaseSteps_add, ← hlast.phaseFinal_eq hcheck]
  exact State.phaseStep_final hlast.phase_final

/-- R176: before the last step of the run the machine is in CHECK, in a phase of a chunk or in
FINAL. -/
theorem State.phaseSteps_ne_idle {s : State} (hcheck : s.processCheck = none) {k : Nat}
    (hk : k < 2 + 4 * chunkCount s.ilen.toNat) :
    (State.phaseSteps k s.startSequencer).seq.phase ≠ .idle := by
  rcases Nat.eq_zero_or_pos k with rfl | hpos
  · simp [State.phaseSteps]
  rcases Nat.lt_or_ge k (1 + 4 * chunkCount s.ilen.toNat) with hlt | hge
  · have hsplit : k = 1 + 4 * ((k - 1) / 4) + (k - 1) % 4 := by omega
    have hchunk : (k - 1) / 4 < chunkCount s.ilen.toNat := by omega
    rw [hsplit, State.phaseSteps_add]
    exact State.phaseSteps_ne_idle_of_gen
      ((State.atChunk_phaseSteps hcheck hchunk.le).phase_gen hchunk) (Nat.mod_lt _ (by decide))
  · obtain rfl : k = 1 + 4 * chunkCount s.ilen.toNat := by omega
    rw [(State.atChunk_phaseSteps hcheck (Nat.le_refl _)).phase_final]
    decide

theorem State.exists_failed_check {s : State} (h : ¬s.ProcessReady) :
    ∃ e, s.processCheck = some e :=
  Option.ne_none_iff_exists'.mp fun hcheck => h (s.processReady_iff.mpr hcheck)

/-- R173: the run of a failing command is CHECK alone. -/
theorem State.phaseSteps_one_of_error {s : State} {e : ErrCode} (h : s.processCheck = some e) :
    State.phaseSteps 1 s.startSequencer = { s.raise e with seq := ⟨.idle, s.seq.i, s.seq.n⟩ } := by
  rw [State.phaseSteps_one_startSequencer,
    State.phaseCheck_of_error (s.processCheck_startSequencer.trans h)]
  rfl

/-! ### The statements -/

/-- Settles O33: `phaseSteps_eq_process`, and CHECK alone where a check fails. -/
theorem phasesRefineTheAtomicCommand : Obligations.PhasesRefineTheAtomicCommand := by
  intro i s hi hidle
  refine ⟨fun hready => ?_, fun hready => ?_⟩
  · rw [exec_enc_or_dec hi]
    exact congrArg _ (State.phaseSteps_eq_process (s.processReady_iff.mp hready)).symm
  · obtain ⟨e, he⟩ := State.exists_failed_check hready
    rw [exec_of_check_failed hi he, State.phaseSteps_one_of_error he, ← hidle]
    rfl

/-- Settles O34: the phases of the run, and `exists_exec_eq_next`. -/
theorem phaseStepsUntilIdle : Obligations.PhaseStepsUntilIdle := by
  refine ⟨fun s hready => ?_, fun s hready => ?_, exists_exec_eq_next⟩
  · have hcheck := s.processReady_iff.mp hready
    refine ⟨fun k => State.phaseSteps_ne_idle hcheck, ?_⟩
    exact (congrArg (·.seq.phase) (State.phaseSteps_eq_process hcheck)).trans
      (by rw [State.process_of_ok s hcheck])
  · obtain ⟨e, he⟩ := State.exists_failed_check hready
    exact ⟨by simp, by rw [State.phaseSteps_one_of_error he]⟩

end Sys2Proof.Machine
end

section
/-! PROOFS. The housekeeping commands: what WIPE and CLRKEY leave, and which commands fail on it
(43_housekeeping.md, R190 and R191). -/

namespace Sys2Proof.Machine

theorem exec_wipe_eq (s : State) :
    exec .wipe s = .next { s with
      w := Vector.replicate 16 0, wmask := 0, snap := Vector.replicate 16 0,
      ks := Vector.replicate 64 0, err := .ok } := rfl

theorem exec_clrkey_eq (s : State) :
    exec .clrkey s = .next { s with key := Vector.replicate 32 0, klen := 0, err := .ok } := rfl

theorem zero_ne_wmaskFull : 0#16 ≠ wmaskFull := by decide

/-- R191: the commands that read the key look at KLEN and NLEN before anything else. -/
theorem exec_of_bad_lengths {s : State} (h : s.klen ≠ 32#32 ∨ s.nlen ≠ 12#32) {i : Instr}
    (hi : i = .init ∨ i = .block ∨ i = .enc ∨ i = .dec) :
    exec i s = .next { s with err := .invalidLength } := by
  rcases hi with rfl | rfl | hstream
  · exact exec_init_of_bad_lengths h
  · exact exec_block_of_bad_lengths h
  · exact exec_of_check_failed hstream (State.processCheck_of_bad_lengths h)

/-- Settles O35: an empty written mask is not full, which every command that reads W checks. -/
theorem wipeResult : Obligations.WipeResult := fun s =>
  ⟨_, exec_wipe_eq s, rfl,
    fun _ _ _ _ => exec_mixing_of_not_full zero_ne_wmaskFull rfl,
    fun _ _ _ _ => exec_mixing_of_not_full zero_ne_wmaskFull rfl,
    exec_mixing_of_not_full zero_ne_wmaskFull rfl,
    exec_ser_of_not_full zero_ne_wmaskFull⟩

/-- Settles O36: a KLEN of 0 is not 32, and the registers CLRKEY writes already hold its values. -/
theorem clrkeyResult : Obligations.ClrkeyResult := by
  intro s
  have hklen : (0 : Word) ≠ 32#32 := by decide
  exact ⟨_, exec_clrkey_eq s, rfl, fun _ => exec_of_bad_lengths (.inl hklen), exec_clrkey_eq _⟩

end Sys2Proof.Machine
end

section
/-! PROOFS. The errors: which command can record which, that a failed command changes ERR alone, and
that ERR is not looked at; the idle step, and the engines of a platform (60_exceptions.md, R200 to
R217). -/

namespace Sys2Proof.Machine

/-! ### Who raises which error (R200) -/

/-- R200: the errors a command can end with. `exists_exec_eq_next_err_mem` ties it to `exec`. -/
def errorsOf : Instr → List ErrCode
  | .round _ _ _ _ => [.stateUninitialized]
  | .qround _ _ _ _ => [.stateUninitialized]
  | .dround => [.stateUninitialized]
  | .init => [.invalidLength]
  | .block => [.invalidLength]
  | .ser => [.invalidLength, .stateUninitialized]
  | .enc => [.invalidLength, .lengthMismatch, .counterOverflow]
  | .dec => [.invalidLength, .lengthMismatch, .counterOverflow]
  | .wipe => []
  | .clrkey => []

/-- R208: a mixing command fails for WVALID alone. -/
theorem State.err_mixTo_mem (s : State) (m : WordState) :
    (s.mixTo m).err ∈ [ErrCode.ok, .stateUninitialized] := by
  by_cases hfull : s.wmask = wmaskFull
  · simp [s.mixTo_of_valid m hfull]
  · simp [s.mixTo_of_invalid m hfull]

/-- R173: ENC and DEC fail for one of their three checks. -/
theorem State.err_process_mem (s : State) :
    s.process.err ∈ [ErrCode.ok, .invalidLength, .lengthMismatch, .counterOverflow] := by
  cases hcheck : s.processCheck with
  | none => simp [s.process_of_ok hcheck]
  | some e => simpa [s.process_of_error hcheck] using .inr (s.processCheck_mem hcheck)

/-- R200: every command ends with no error or with one of its own. -/
theorem exists_exec_eq_next_err_mem (i : Instr) (s : State) :
    ∃ t, exec i s = .next t ∧ t.err ∈ .ok :: errorsOf i := by
  cases i with
  | round | qround | dround => exact ⟨_, rfl, s.err_mixTo_mem _⟩
  | init | block =>
    by_cases hlen : s.lengthsOk = true
    · exact ⟨_, if_pos hlen, .head _⟩
    · exact ⟨_, if_neg hlen, .tail _ (.head _)⟩
  | ser =>
    by_cases hfull : s.wmask = wmaskFull
    · by_cases holen : s.olen = 64#64
      · exact ⟨_, execSer_of_ready s hfull holen, .head _⟩
      · exact ⟨_, exec_ser_of_olen_ne hfull holen, .tail _ (.head _)⟩
    · exact ⟨_, exec_ser_of_not_full hfull, .tail _ (.tail _ (.head _))⟩
  | enc | dec => exact ⟨_, rfl, s.err_process_mem⟩
  | wipe | clrkey => exact ⟨_, rfl, .head _⟩

/-- R200: no command of the opcode table raises IllegalCommand. -/
theorem illegalCommand_not_mem_errorsOf (i : Instr) : .illegalCommand ∉ .ok :: errorsOf i := by
  cases i <;> simp [errorsOf]

/-- R207: a word that is no command raises IllegalCommand. -/
theorem issue_of_illegal {c : Word} {why : IllegalWord} (h : decode c = .illegal why) (s : State) :
    issue c s = .next (s.raise .illegalCommand) := by
  rw [issue, h]

/-- Settles O37: the errors of each command, and of a word that is none. -/
theorem errorCodesAndWhoRaisesThem : Obligations.ErrorCodesAndWhoRaisesThem := by
  refine ⟨by decide, fun i s => ?_, fun c s => ?_⟩
  · obtain ⟨t, hx, herr⟩ := exists_exec_eq_next_err_mem i s
    refine ⟨t, hx, ?_⟩
    cases i <;> simpa [errorsOf] using herr
  · cases hd : decode c with
    | command i =>
      obtain ⟨t, hx, herr⟩ := exists_exec_eq_next_err_mem i s
      refine ⟨t, (issue_of_decode hd s).trans hx, iff_of_false (fun ht => ?_) (by simp)⟩
      exact illegalCommand_not_mem_errorsOf i (ht ▸ herr)
    | illegal why => exact ⟨_, issue_of_illegal hd s, iff_of_true rfl ⟨why, rfl⟩⟩

/-! ### A failed command (R211) -/

/-- R16, R211: a command that did not complete has raised its error and done nothing else. -/
theorem Executed.eq_raise {i : Instr} {s t : State} (h : Executed i s t) (herr : t.err ≠ .ok) :
    t = s.raise t.err := by
  cases h with
  | raised e => rfl
  | enc hcheck | dec hcheck =>
    exact absurd (State.err_process_of_ready (s.processReady_iff.mpr hcheck)) herr
  | _ => exact absurd rfl herr

/-- Settles O38: a command that did not complete, and a word that is no command. -/
theorem failedCommandChangesOnlyErr : Obligations.FailedCommandChangesOnlyErr := by
  intro c s t h herr
  rcases issue_cases h with ⟨i, -, hx⟩ | rfl
  · exact hx.eq_raise herr
  · rfl

/-! ### ERR is not sticky (R213) -/

/-- Settles O39: `exec_raise`, and an error raised over the old one. -/
theorem outcomeDoesNotDependOnTheOldErr : Obligations.OutcomeDoesNotDependOnTheOldErr := by
  intro c s e
  cases hd : decode c with
  | command i => rw [issue_of_decode hd, issue_of_decode hd]; exact exec_raise i s e
  | illegal why => rw [issue_of_illegal hd, issue_of_illegal hd]; rfl

/-! ### The idle engine and the engines of a platform (R215, R217) -/

/-- Settles O11: the first case of `step`. -/
theorem idleEngineKeepsItsState : Obligations.IdleEngineKeepsItsState := by
  intro s hidle
  rw [step, hidle]

/-- R215: a step of the platform at an engine it does not have leaves it as it is. -/
theorem Platform.stepAt_of_none {p : Platform} {k : Nat} (h : p.engines[k]? = none) :
    p.stepAt k = .next p := by
  rw [Platform.stepAt, h]

/-- R215: a step of the platform at an engine is that engine's step, put back in its place. -/
theorem Platform.exists_step_of_stepAt {p q : Platform} {k : Nat} {s : State}
    (hs : p.engines[k]? = some s) (h : p.stepAt k = .next q) :
    ∃ t, step s = .next t ∧ q.engines = p.engines.set k t := by
  simp only [Platform.stepAt, hs] at h
  cases hstep : step s with
  | next t =>
    simp only [hstep, Host.Outcome.next.injEq] at h
    exact ⟨t, rfl, by rw [← h]⟩
  | fault r => cases r
  | refused r => simp [hstep] at h

/-- Settles O56: the step puts one engine back in its place, and reset repeats one state. -/
theorem enginesShareNothing : Obligations.EnginesShareNothing := by
  refine ⟨fun p q k h => ⟨fun j hj => ?_, fun s hs => ?_⟩, fun n s => List.eq_of_mem_replicate, rfl⟩
  · cases hs : p.engines[k]? with
    | none => rw [Host.Outcome.next.inj ((Platform.stepAt_of_none hs).symm.trans h)]
    | some s =>
      obtain ⟨t, -, hq⟩ := Platform.exists_step_of_stepAt hs h
      rw [hq, List.getElem?_set_ne hj.symm]
  · obtain ⟨t, hstep, hq⟩ := Platform.exists_step_of_stepAt hs h
    obtain ⟨hk, -⟩ := List.getElem?_eq_some_iff.mp hs
    exact ⟨t, hstep, by rw [hq, List.getElem?_set_self hk]⟩

end Sys2Proof.Machine
end

section
/-! PROOFS. Reset and hazards: a round step read backwards, a reset while a command executes, and the
first command after reset (70_reset_and_hazards.md, R231, R232 and R237). -/

namespace Sys2Proof.Machine

/-! ### A round step read backwards (R237) -/

/-- R12: the rotation by `(32 - r) mod 32` takes every bit back to where the rotation by `r` found
it. -/
theorem rotl32_rotl32_back (v : Word) {r : Nat} (hr : r < 32) :
    rotl32 (rotl32 v r) ((32 - r) % 32) = v := by
  apply BitVec.eq_of_getLsbD_eq
  intro i hi
  have hmid : (i + r) % 32 < 32 := Nat.mod_lt _ (by omega)
  have hback : (32 - r) % 32 < 32 := Nat.mod_lt _ (by omega)
  have hround : ((i + r) % 32 + (32 - r) % 32) % 32 = i := by omega
  calc (rotl32 (rotl32 v r) ((32 - r) % 32)).getLsbD i
      = (rotl32 v r).getLsbD ((i + r) % 32) := by
        rw [← getLsbD_rotl32_add_mod (rotl32 v r) hback hmid, hround]
    _ = v.getLsbD i := getLsbD_rotl32_add_mod v hr hi

/-- R237, the first statement: `W[y]` before a round step, from `W[x]` and `W[y]` after it. -/
theorem roundStep_undo_snd (m : WordState) {x y : Fin 16} (z : Fin 16) {r : Nat} (hr : r < 32)
    (hxy : x ≠ y) :
    xor32 (rotl32 (roundStep m x y z r)[y.val] ((32 - r) % 32)) (roundStep m x y z r)[x.val]
      = m[y.val] := by
  rw [getElem_roundStep_snd m r hxy, getElem_roundStep_fst m r hxy, rotl32_rotl32_back _ hr, xor32,
    xor32, BitVec.xor_assoc, BitVec.xor_self, BitVec.xor_zero]

/-- R237, the second statement: `W[x]` before a round step, from `W[x]` and `W[z]` after it. -/
theorem roundStep_undo_fst (m : WordState) {x y z : Fin 16} (r : Nat) (hxy : x ≠ y) (hxz : x ≠ z)
    (hyz : y ≠ z) : (roundStep m x y z r)[x.val] - (roundStep m x y z r)[z.val] = m[x.val] := by
  have hz : (roundStep m x y z r)[z.val] = m[z.val] :=
    getElem_roundStep_ne m x y z r z.isLt (Fin.val_ne_of_ne hxz.symm) (Fin.val_ne_of_ne hyz.symm)
  rw [getElem_roundStep_fst m r hxy, hz, add32, BitVec.add_sub_cancel]

/-- Settles O18: the rotation is taken back, the exclusive or cancels, and `W[z]` is still there to
be subtracted. -/
theorem roundWithDistinctIndicesCanBeUndone : Obligations.RoundWithDistinctIndicesCanBeUndone := by
  intro x y z r s hxy hxz hyz hfull
  exact ⟨_, exec_round_of_full hfull x y z r, roundStep_undo_snd s.w z r.isLt hxy,
    roundStep_undo_fst s.w r.val hxy hxz hyz⟩

/-! ### Reset while a command executes (R231) -/

theorem State.abandonedRange_of_process {s : State} {c : Word}
    (h : decode c = .command .enc ∨ decode c = .command .dec) :
    s.abandonedRange c = s.ilen.toNat := by
  rcases h with h | h <;> simp only [State.abandonedRange, h]

theorem State.abandonedRange_of_ser {s : State} {c : Word} (h : decode c = .command .ser) :
    s.abandonedRange c = 64 := by
  simp only [State.abandonedRange, h, Config.blockBytes]

/-- R42, R231: a word that is not ENC, DEC or SER has stored no byte of OUT. -/
theorem State.abandonedRange_of_other {s : State} {c : Word} (henc : decode c ≠ .command .enc)
    (hdec : decode c ≠ .command .dec) (hser : decode c ≠ .command .ser) :
    s.abandonedRange c = 0 := by
  unfold State.abandonedRange
  split
  case h_1 h => exact absurd h henc
  case h_2 h => exact absurd h hdec
  case h_3 h => exact absurd h hser
  all_goals rfl

/-- Settles O47: the registers are those of `abandon_eq`, and OUT past the range of the command is
as it was (`abandon_read`). -/
theorem resetDuringACommand : Obligations.ResetDuringACommand := by
  intro s c rest hpending
  have hout : ∀ {len : Nat}, (s.serving rest).abandonedRange c = len → ∀ a, len ≤ a →
      ((s.serving rest).abandon c).outBuf.read a = s.outBuf.read a :=
    fun hlen a ha => (s.serving rest).abandon_read c (hlen.trans_le ha)
  refine ⟨(s.serving rest).abandon c, step_of_pending hpending, ?_,
    fun h => hout (State.abandonedRange_of_process h),
    fun h => hout (State.abandonedRange_of_ser h),
    fun henc hdec hser a =>
      hout (State.abandonedRange_of_other henc hdec hser) a (Nat.zero_le a)⟩
  rw [State.abandon_eq]
  rfl

/-! ### The first command after reset (R232) -/

/-- Settles O46: after reset WMASK is not full and KLEN is not 32, and the registers WIPE and CLRKEY
clear hold their values of reset. -/
theorem firstCommandAfterReset : Obligations.FirstCommandAfterReset := by
  intro s
  have hmask : s.engineReset.wmask ≠ wmaskFull := zero_ne_wmaskFull
  have hklen : s.engineReset.klen ≠ 32#32 := show (0 : Word) ≠ 32#32 by decide
  refine ⟨fun i hi => ?_, fun i hi => exec_of_bad_lengths (.inl hklen) hi,
    exec_wipe_eq _, exec_clrkey_eq _⟩
  rcases hi with ⟨x, y, z, r, rfl⟩ | ⟨a, b, c, d, rfl⟩ | rfl | rfl
  · exact exec_mixing_of_not_full hmask rfl
  · exact exec_mixing_of_not_full hmask rfl
  · exact exec_mixing_of_not_full hmask rfl
  · exact exec_ser_of_not_full hmask

end Sys2Proof.Machine
end
